-- ==== Sys2Proof/Word.lean ====
section
/-! DEFINITION. The words of RTCM3-CORE: bytes of a stream, 32-bit port words, byte sequences in stream order
(00_scope.md R10, R14). -/

namespace Sys2Proof

/-- One byte of a stream or of a block memory (00_scope.md R14). -/
abbrev Byte := BitVec 8

/-- One 32-bit word of the register port; bit 0 is its least significant bit (00_scope.md R10, 20_memory.md R60). -/
abbrev Word := BitVec 32

/-- A byte sequence in stream order, earliest byte first (00_scope.md R10). -/
abbrev Bytes := List Byte

end Sys2Proof
end

