-- ==== Sys2Proof/Syntax.lean ====
section
/-! DEFINITION. The commands of 30_encoding.md R83 as syntax: one constructor per row of the opcode table, with the
operands as the assembler syntax of R87 writes them. -/

namespace Sys2Proof

/-- One command (30_encoding.md R83, R87). Operands are the unsigned numbers of R82; the widths and limits that the
encoding puts on them are `Instr.WellFormed`. `peek` is the bit P of R82. -/
inductive Instr where
  /-- `NOP` (40_control.md R110). -/
  | nop
  /-- `RESET` (40_control.md R111). -/
  | reset
  /-- `CRC a, n` (42_checksum.md R155): start index and byte count. -/
  | crc (a n : Nat)
  /-- `PUSH n` (43_framer.md R171): number of new bytes. -/
  | push (n : Nat)
  /-- `XSETLEN n` (41_bitfield.md R130): length in bytes. -/
  | xsetlen (n : Nat)
  /-- `XLOAD k` (41_bitfield.md R131): frame index. -/
  | xload (k : Nat)
  /-- `EXTU w`, or `EXTU.P w` when `peek` (41_bitfield.md R133). -/
  | extu (w : Nat) (peek : Bool)
  /-- `EXTS w`, or `EXTS.P w` when `peek` (41_bitfield.md R134). -/
  | exts (w : Nat) (peek : Bool)
  /-- `ALIGN` (41_bitfield.md R137). -/
  | align
  deriving DecidableEq, Repr

namespace Instr

/-! The pseudo-commands of 30_encoding.md R88, as the commands they stand for. -/

/-- `EXTB`: the boolean read. -/
abbrev extb : Instr := .extu 1 false
/-- `EXTB.P`: the boolean peek. -/
abbrev extbPeek : Instr := .extu 1 true
/-- `PEEKU w`. -/
abbrev peeku (w : Nat) : Instr := .extu w true
/-- `PEEKS w`. -/
abbrev peeks (w : Nat) : Instr := .exts w true
/-- `DISPATCH`: the 12-bit message type read. -/
abbrev dispatch : Instr := .extu 12 true
/-- `SKIP w`: consume `w` bits. -/
abbrev skip (w : Nat) : Instr := .extu w false

end Instr

end Sys2Proof
end

