-- ==== Sys2Proof/WellFormed.lean ====
section
/-! DEFINITION. Which commands can be encoded: what the assembler of 30_encoding.md R87 accepts, by the field widths of
R81 and R82. -/

namespace Sys2Proof

/-- "An assembler refuses a `w` outside 1 to 64, an `a` outside 0 to 4095, an `n` outside the field's width, and a `k`
outside 0 to 4095" (30_encoding.md R87; field widths R81). -/
abbrev Instr.WellFormed : Instr → Prop
  | .nop => True
  | .reset => True
  | .crc a n => a ≤ 4095 ∧ n ≤ 8191
  | .push n => n ≤ 8191
  | .xsetlen n => n ≤ 1023
  | .xload k => k ≤ 4095
  | .extu w _ => 1 ≤ w ∧ w ≤ 64
  | .exts w _ => 1 ≤ w ∧ w ≤ 64
  | .align => True

/-- `Instr.WellFormed` as a Bool, for the assembler and for tests. -/
def Instr.wellFormed : Instr → Bool
  | .nop => true
  | .reset => true
  | .crc a n => decide (a ≤ 4095) && decide (n ≤ 8191)
  | .push n => decide (n ≤ 8191)
  | .xsetlen n => decide (n ≤ 1023)
  | .xload k => decide (k ≤ 4095)
  | .extu w _ => decide (1 ≤ w) && decide (w ≤ 64)
  | .exts w _ => decide (1 ≤ w) && decide (w ≤ 64)
  | .align => true

/-- The two readings of well-formedness agree. -/
theorem Instr.wellFormed_iff (i : Instr) : i.wellFormed = true ↔ i.WellFormed := by
  cases i <;> simp [Instr.wellFormed, Instr.WellFormed]

end Sys2Proof
end

