-- ==== Sys2Proof/Decode.lean ====
section
/-! DEFINITION. Command words: the opcode map of 30_encoding.md R83 with its match and mask values, the decoder of
R84 and R85 (total on every 32-bit word, rejecting by name), and the encoder of R87. -/

namespace Sys2Proof

/-- The nine opcodes of 30_encoding.md R83. -/
inductive Opcode where
  | nop
  | reset
  | crc
  | push
  | xsetlen
  | xload
  | extu
  | exts
  | align
  deriving DecidableEq, Repr

/-- Why a word is ILLEGAL (30_encoding.md R85). -/
inductive Reject where
  /-- OP is 0x09 to 0x3F. -/
  | undefinedOpcode
  /-- A bit reserved by the opcode's format is 1. -/
  | reservedBitSet
  deriving DecidableEq, Repr

/-- The OP column of 30_encoding.md R83, read from the opcode number to its row; `none` for 0x09 to 0x3F. -/
def Opcode.ofCode (op : Nat) : Option Opcode :=
  match op with
  | 0x00 => some .nop
  | 0x01 => some .reset
  | 0x02 => some .crc
  | 0x03 => some .push
  | 0x04 => some .xsetlen
  | 0x05 => some .xload
  | 0x06 => some .extu
  | 0x07 => some .exts
  | 0x08 => some .align
  | _ => none

/-- The match column of 30_encoding.md R83. -/
def Opcode.matchWord : Opcode → Word
  | .nop => 0x00000000#32
  | .reset => 0x04000000#32
  | .crc => 0x08000000#32
  | .push => 0x0C000000#32
  | .xsetlen => 0x10000000#32
  | .xload => 0x14000000#32
  | .extu => 0x18000000#32
  | .exts => 0x1C000000#32
  | .align => 0x20000000#32

/-- The mask column of 30_encoding.md R83: OP and every reserved bit of the format. -/
def Opcode.maskWord : Opcode → Word
  | .nop => 0xFFFFFFFF#32
  | .reset => 0xFFFFFFFF#32
  | .crc => 0xFE000000#32
  | .push => 0xFFFFE000#32
  | .xsetlen => 0xFFFFFC00#32
  | .xload => 0xFFFFF000#32
  | .extu => 0xFFFFFF80#32
  | .exts => 0xFFFFFF80#32
  | .align => 0xFFFFFFFF#32

/-- `v[hi:lo]` as an unsigned number (00_scope.md R10, 30_encoding.md R82: no operand is scaled or sign-extended). -/
def field (c : Word) (hi lo : Nat) : Nat :=
  (c.extractLsb' lo (hi - lo + 1)).toNat

/-- The operand fields of each format, taken from the bits of 30_encoding.md R81; `W = WM1 + 1` (R82). -/
def Opcode.operands (op : Opcode) (c : Word) : Instr :=
  match op with
  | .nop => .nop
  | .reset => .reset
  | .crc => .crc (field c 11 0) (field c 24 12)
  | .push => .push (field c 12 0)
  | .xsetlen => .xsetlen (field c 9 0)
  | .xload => .xload (field c 11 0)
  | .extu => .extu (field c 5 0 + 1) (c.getLsbD 6)
  | .exts => .exts (field c 5 0 + 1) (c.getLsbD 6)
  | .align => .align

/-- The decoder: the first two checks of 30_encoding.md R84, then the operand fields. -/
def decode (c : Word) : Except Reject Instr :=
  match Opcode.ofCode (field c 31 26) with
  | none => .error .undefinedOpcode
  | some op =>
    if c &&& op.maskWord = op.matchWord then .ok (op.operands c) else .error .reservedBitSet

/-- The opcode of a command (30_encoding.md R83). -/
def Instr.opcode : Instr → Opcode
  | .nop => .nop
  | .reset => .reset
  | .crc _ _ => .crc
  | .push _ => .push
  | .xsetlen _ => .xsetlen
  | .xload _ => .xload
  | .extu _ _ => .extu
  | .exts _ _ => .exts
  | .align => .align

/-- The word column of 30_encoding.md R87, for format X: `P << 6 | (w - 1)`. -/
def extractOperands (w : Nat) (peek : Bool) : Word :=
  (BitVec.ofNat 32 peek.toNat <<< 6) ||| BitVec.ofNat 32 (w - 1)

/-- The encoder: the word column of 30_encoding.md R87. -/
def encode : Instr → Word
  | .nop => 0x00000000#32
  | .reset => 0x04000000#32
  | .crc a n => 0x08000000#32 ||| (BitVec.ofNat 32 n <<< 12) ||| BitVec.ofNat 32 a
  | .push n => 0x0C000000#32 ||| BitVec.ofNat 32 n
  | .xsetlen n => 0x10000000#32 ||| BitVec.ofNat 32 n
  | .xload k => 0x14000000#32 ||| BitVec.ofNat 32 k
  | .extu w peek => 0x18000000#32 ||| extractOperands w peek
  | .exts w peek => 0x1C000000#32 ||| extractOperands w peek
  | .align => 0x20000000#32

/-- The instruction the decoder reads from an opcode-table row's bits `w`, with every bit at or above `nbits` zero. A
command is one 32-bit word written to CMD (30_encoding.md R80), so the word is given to `decode` as it stands. -/
def decodeTableWord (nbits w : Nat) : Option Instr :=
  match decode (BitVec.ofNat 32 (w % 2 ^ nbits)) with
  | .ok i => some i
  | .error _ => none

end Sys2Proof
end

