-- ==== Sys2Proof/Config.lean ====
section
/-! DEFINITION. What is fixed for the block: the parameters of 00_scope.md R7, the identification word of
10_state.md R22, and the FREE VALUES, each an opaque constant of which nothing can be proved. -/

namespace Sys2Proof

/-- The byte memories of the block (10_state.md R37 to R40), as names. -/
inductive MemName where
  | ibuf
  | pbuf
  | rbuf
  | obuf
  deriving DecidableEq, Repr

namespace Config

/-- `PREAMBLE` (00_scope.md R7). -/
@[simp] def preamble : Byte := 0xD3#8

/-- `CRC_POLY`, of degree 24 (00_scope.md R7). -/
def crcPoly : BitVec 25 := 0x1864CFB#25

/-- `CRC_INIT` (00_scope.md R7), in the 25-bit working register of 42_checksum.md R150. -/
@[simp] def crcInit : BitVec 25 := 0#25

/-- `MAXRET_DEFAULT` (00_scope.md R7). -/
@[simp] def maxretDefault : Nat := 10000

/-- `MAXRET_LIMIT` (00_scope.md R7). -/
@[simp] def maxretLimit : Nat := 16384

/-- `IBUF_CAP` (00_scope.md R7). -/
@[simp] def ibufCap : Nat := 4096

/-- `BUF_CAP = MAXRET_LIMIT + IBUF_CAP`, the capacity of RBUF and of OBUF (00_scope.md R7). -/
@[simp] def bufCap : Nat := maxretLimit + ibufCap

/-- `PBUF_CAP` (00_scope.md R7). -/
@[simp] def pbufCap : Nat := 1023

/-- The number of words of FDESC (10_state.md R41). -/
@[simp] def fdescCap : Nat := 4096

/-- `FDESC_MAX`, the most frames one PUSH can emit (00_scope.md R7). -/
@[simp] def fdescMax : Nat := bufCap / 6

/-- `SCAN_TAIL` (00_scope.md R7, 43_framer.md R170): the spec's value; the framer takes it as an argument, so that
the other reading, 7, can be stated too (log entry 7). -/
@[simp] def scanTail : Nat := 6

/-- What ID always reads as (10_state.md R22). -/
@[simp] def idValue : Word := 0x43523234#32

/-- FREE VALUE: the `draw` (00_scope.md R14) behind the n-th host read, from which every bit or byte the spec leaves
free in that read is taken (20_memory.md R65, 70_reset_and_hazards.md R241; log entry 3). -/
opaque draw : Nat → Word

/-- FREE VALUE: what byte `a` of a memory holds after the `epoch`-th hardware reset until it is written
(70_reset_and_hazards.md R231; log entry 4). -/
opaque unwritten : (epoch : Nat) → MemName → (a : Nat) → Byte

/-- FREE VALUE: what word `k` of FDESC holds after the `epoch`-th hardware reset until it is written
(70_reset_and_hazards.md R231; log entry 4). -/
opaque unwrittenDesc : (epoch : Nat) → (k : Nat) → Word

end Config

end Sys2Proof
end

