-- ==== Sys2Proof/Machine/State.lean ====
section
/-! DEFINITION. The state of the block (10_state.md R20 and R37 to R42), the moves of its agents (00_scope.md R9), the
reasons a step can stop, and the state after hardware reset (70_reset_and_hazards.md R231). -/

namespace Sys2Proof.Machine

/-- A memory as plain data: (index, content) pairs in ONE canonical form, indices strictly rising. An index with no
entry has not been written and reads as no value (`Memory.read`), so no entry can equal what an unlisted index reads
as; the free value behind an unlisted index is supplied by `State.byteAt` and `State.desc` (log entry 4). -/
abbrev Memory (α : Type) := List (Nat × α)

/-- The cause codes of 60_exceptions.md R200; the codes 4 to 7 are never produced and have no name here. -/
inductive Cause where
  /-- code 0 -/
  | ok
  /-- code 1 -/
  | illegal
  /-- code 2 -/
  | range
  /-- code 3 -/
  | bounds
  deriving DecidableEq, Repr

/-- One move of an agent (00_scope.md R9): the engine's turn, a host access on the register port (20_memory.md R60),
the host's poll (30_encoding.md R87), or an edge of the reset input (70_reset_and_hazards.md R230). -/
inductive Turn where
  /-- The command engine's turn: it completes the pending command, if there is one (10_state.md R42). -/
  | engine
  /-- `MemRead(addr, 4)` (20_memory.md R60); the host's `RD addr`. -/
  | read (addr : BitVec 19)
  /-- `MemWrite(addr, 4, v)` (20_memory.md R60); the host's `WR addr, v`. -/
  | write (addr : BitVec 19) (v : Word)
  /-- The host's `POLL`: repeat `RD 0x00008` until bit 0 is 0 (30_encoding.md R87; log entry 2). -/
  | poll
  /-- The reset input is asserted (70_reset_and_hazards.md R230). -/
  | assertReset
  /-- The reset input is deasserted (70_reset_and_hazards.md R230). -/
  | releaseReset
  deriving DecidableEq, Repr

/-- The state of the block. The first group is the spec's (R20); the last five fields are the model's own, for the
outside world and the free values (INVENTORY.md, log entries 1 to 5). -/
structure State where
  /-- STATUS.CAUSE (10_state.md R25). -/
  cause : Cause
  /-- STATUS.ERR (10_state.md R25). -/
  err : Bool
  /-- STATUS.XFAIL (10_state.md R25). -/
  xfail : Bool
  /-- STATUS.HZ (10_state.md R25). -/
  hz : Bool
  /-- ERRCMD (10_state.md R27). -/
  errcmd : Word
  /-- RESULT, read as RESULT_HI and RESULT_LO (10_state.md R28). -/
  result : BitVec 64
  /-- LASTW (10_state.md R29). -/
  lastw : BitVec 7
  /-- CRC (10_state.md R30). -/
  crc : BitVec 24
  /-- CUR (10_state.md R31). -/
  cur : BitVec 13
  /-- PLEN (10_state.md R32). -/
  plen : BitVec 10
  /-- RLEN (10_state.md R33). -/
  rlen : BitVec 15
  /-- FCOUNT (10_state.md R34). -/
  fcount : BitVec 12
  /-- OBLEN (10_state.md R35). -/
  oblen : BitVec 15
  /-- MAXRET (10_state.md R36). -/
  maxret : BitVec 15
  /-- IBUF (10_state.md R37). -/
  ibuf : Memory Byte
  /-- PBUF (10_state.md R38). -/
  pbuf : Memory Byte
  /-- RBUF (10_state.md R39). -/
  rbuf : Memory Byte
  /-- OBUF (10_state.md R40). -/
  obuf : Memory Byte
  /-- FDESC (10_state.md R41). -/
  fdesc : Memory Word
  /-- The pending command, none or a command word (10_state.md R42); STATUS.BUSY is its presence (`State.busy`). -/
  pending : Option Word
  /-- The level of the reset input (70_reset_and_hazards.md R230). -/
  inReset : Bool
  /-- The agents' moves still to come, the next one first (log entry 1). -/
  turns : List Turn
  /-- The word the last host read returned (20_memory.md R60; log entry 5). -/
  rdata : Word
  /-- How many host reads have been answered: the index of the next `Config.draw` (log entry 3). -/
  draws : Nat
  /-- How many hardware resets have happened: the index of `Config.unwritten` (log entry 4). -/
  epoch : Nat
  deriving DecidableEq, Repr

/-- STATUS.BUSY: 1 from the accepted CMD write until the completion step (10_state.md R25, R42). -/
def State.busy (s : State) : Bool := s.pending.isSome

/-- The state after hardware reset (70_reset_and_hazards.md R231, the reset column of 10_state.md R21); the model's own
fields start empty (log entry 5). -/
def State.reset : State where
  cause := .ok
  err := false
  xfail := false
  hz := false
  errcmd := 0#32
  result := 0#64
  lastw := 0#7
  crc := 0#24
  cur := 0#13
  plen := 0#10
  rlen := 0#15
  fcount := 0#12
  oblen := 0#15
  maxret := 10000#15
  ibuf := []
  pbuf := []
  rbuf := []
  obuf := []
  fdesc := []
  pending := none
  inReset := false
  turns := []
  rdata := 0#32
  draws := 0
  epoch := 0

/-- Why the machine stops with a fault. -/
inductive Fault where
  /-- Raised by a host access (`Turn.read`, `Turn.write`, `Turn.poll`) while the reset input is asserted: "register port
  accesses have no defined result: a model gives them no step" (70_reset_and_hazards.md R230, U11). SAFE: the machine
  stops where the block does something the spec does not say (log entry 8). -/
  | portAccessInReset
  deriving DecidableEq, Repr

/-- Why the machine refuses an instruction. -/
inductive Refusal where
  /-- Raised by an arm of `exec` whose instruction has no meaning yet; none is left. SAFE: the machine stops. -/
  | notModelled (mnemonic : String)
  deriving DecidableEq, Repr

end Sys2Proof.Machine
end

