-- ==== Sys2Proof/Machine/Ops.lean ====
section
/-! DEFINITION. The named operations every meaning is built from: the memories (reading, writing, canonical form), a
command's two endings (success, and `raise CmdError(c)` of 60_exceptions.md R201), its completion step (10_state.md R42),
and the two edges of the reset input (70_reset_and_hazards.md R230). -/

namespace Sys2Proof.Machine

namespace Memory

variable {α : Type}

/-- The content at index `a`; none where nothing has been written. -/
def read : Memory α → Nat → Option α
  | [], _ => none
  | (k, v) :: m, a => if a = k then some v else read m a

/-- `MEM[a] <- v` (00_scope.md R14), keeping the indices strictly rising. -/
def write : Memory α → Nat → α → Memory α
  | [], a, v => [(a, v)]
  | (k, w) :: m, a, v =>
    if a < k then (a, v) :: (k, w) :: m
    else if a = k then (a, v) :: m
    else (k, w) :: write m a v

/-- `MEM[a .. a + |vs|) <- vs` (00_scope.md R14). -/
def writeList : Memory α → Nat → List α → Memory α
  | m, _, [] => m
  | m, a, v :: vs => writeList (write m a v) (a + 1) vs

/-- A memory whose only written content is `vs`, from index `a` up. -/
def ofList : Nat → List α → Memory α
  | _, [] => []
  | a, v :: vs => (a, v) :: ofList (a + 1) vs

/-- The canonical form: indices strictly rising. -/
abbrev wf (m : Memory α) : Prop := m.Pairwise fun x y => x.1 < y.1

/-- Every written index lies below the capacity `cap`. -/
abbrev within (cap : Nat) (m : Memory α) : Prop := ∀ c ∈ m, c.1 < cap

end Memory

/-- The byte memory of a name (10_state.md R37 to R40). -/
def State.mem (s : State) : MemName → Memory Byte
  | .ibuf => s.ibuf
  | .pbuf => s.pbuf
  | .rbuf => s.rbuf
  | .obuf => s.obuf

/-- `MEM[a]` (00_scope.md R14); a byte never written since hardware reset is the free value of its epoch
(70_reset_and_hazards.md R231; log entry 4). -/
def State.byteAt (s : State) (m : MemName) (a : Nat) : Byte :=
  ((s.mem m).read a).getD (Config.unwritten s.epoch m a)

/-- `MEM[a .. a + n)` (00_scope.md R14). -/
def State.bytesAt (s : State) (m : MemName) (a n : Nat) : Bytes :=
  (List.range' a n).map (s.byteAt m)

/-- `FDESC[k]` (00_scope.md R14), the free value of the epoch where nothing has been written. -/
def State.desc (s : State) (k : Nat) : Word :=
  (s.fdesc.read k).getD (Config.unwrittenDesc s.epoch k)

/-- `FDESC[k].OFF`, bits [14:0] (10_state.md R41). -/
def descOff (d : Word) : Nat := (d.extractLsb' 0 15).toNat

/-- `FDESC[k].LEN`, bits [26:16] (10_state.md R41). -/
def descLen (d : Word) : Nat := (d.extractLsb' 16 11).toNat

/-- `STATUS.CAUSE <- OK`, the last line of every command that raised nothing (30_encoding.md R84). -/
def succeed (s : State) : State := { s with cause := .ok }

/-- `raise CmdError(c)` by the command word `word`: CAUSE, ERR, ERRCMD and, for BOUNDS, XFAIL, and nothing else
(60_exceptions.md R201). -/
def raise (c : Cause) (word : Word) (s : State) : State :=
  { s with
    cause := c
    err := true
    errcmd := word
    xfail := if c = .bounds then true else s.xfail }

/-- The end of the completion step: the pending command becomes none, so BUSY becomes 0 (10_state.md R42). -/
def finish (s : State) : State := { s with pending := none }

/-- A command's outcome followed by the end of its completion step. -/
def complete : Host.Outcome State Fault Refusal → Host.Outcome State Fault Refusal
  | .next s => .next (finish s)
  | .fault r => .fault r
  | .refused r => .refused r

/-- The reset state of 70_reset_and_hazards.md R231, in which the moves still to come and the last read's word stand as
they did, and the memories hold the free contents of a new epoch (log entries 4 and 9). -/
def hardReset (s : State) : State :=
  { State.reset with
    turns := s.turns
    rdata := s.rdata
    draws := s.draws
    epoch := s.epoch + 1 }

/-- The reset input is asserted: a pending command is abandoned (70_reset_and_hazards.md R230; log entry 9). -/
def assertReset (s : State) : State := { s with pending := none, inReset := true }

/-- The reset input is deasserted: "the block is in the reset state of rule R231, with no command pending"
(70_reset_and_hazards.md R230; log entry 9). -/
def releaseReset (s : State) : State := if s.inReset then hardReset s else s

end Sys2Proof.Machine
end

