-- ==== Sys2Proof/Machine/Checksum.lean ====
section
/-! DEFINITION. The CRC unit: the function crc24q (42_checksum.md R150), its byte-wise form (R153), and the CRC command
(R155). -/

namespace Sys2Proof.Machine

/-- One repetition of the inner loop of 42_checksum.md R150: shift left, and reduce when bit 24 comes out as 1. -/
def crcShift (r : BitVec 25) : BitVec 25 :=
  if (r <<< 1).getLsbD 24 then (r <<< 1) ^^^ Config.crcPoly else r <<< 1

/-- `f` applied `n` times. -/
def iterate {α : Type} (f : α → α) : Nat → α → α
  | 0, x => x
  | n + 1, x => iterate f n (f x)

/-- One byte of 42_checksum.md R150: the byte enters at the top, then eight shifts. -/
def crcByte (r : BitVec 25) (b : Byte) : BitVec 25 :=
  iterate crcShift 8 (r ^^^ (b.setWidth 25 <<< 16))

/-- `crc24q(S)` (42_checksum.md R150). -/
def crc24q (S : Bytes) : BitVec 24 := (S.foldl crcByte Config.crcInit).setWidth 24

/-- `Tab[b]` of the byte-wise form (42_checksum.md R153). -/
def crcTab (b : Byte) : BitVec 24 := crc24q [b]

/-- One byte of the byte-wise form: `r <- ((r << 8) mod 2^24) XOR Tab[(r >> 16) XOR b]` (42_checksum.md R153). -/
def crcTabByte (r : BitVec 24) (b : Byte) : BitVec 24 :=
  (r <<< 8) ^^^ crcTab ((r >>> 16).setWidth 8 ^^^ b)

/-- The byte-wise form of crc24q (42_checksum.md R153, informative). -/
def crc24qTab (S : Bytes) : BitVec 24 := S.foldl crcTabByte 0#24

/-- CRC a, n: RANGE where the range would leave IBUF, else CRC-24Q of `IBUF[a .. a + n)` (42_checksum.md R155). -/
def execCrc (a n : Nat) (s : State) : Host.Outcome State Fault Refusal :=
  if a + n > Config.ibufCap then
    .next (raise .range (encode (.crc a n)) s)
  else
    .next (succeed { s with crc := crc24q (s.bytesAt .ibuf a n) })

end Sys2Proof.Machine
end

