-- ==== Sys2Proof/Machine/Control.lean ====
section
/-! DEFINITION. The control commands of 40_control.md: NOP (R110) and RESET (R111). -/

namespace Sys2Proof.Machine

/-- NOP: only CAUSE is written (40_control.md R110). -/
def execNop (s : State) : Host.Outcome State Fault Refusal := .next (succeed s)

/-- RESET: the soft reset of the framer and extractor; MAXRET and the memories keep their contents
(40_control.md R111; log entry 6). -/
def execReset (s : State) : Host.Outcome State Fault Refusal :=
  .next (succeed { s with
    rlen := 0#15
    fcount := 0#12
    oblen := 0#15
    plen := 0#10
    cur := 0#13
    result := 0#64
    lastw := 0#7
    crc := 0#24
    errcmd := 0#32
    err := false
    xfail := false
    hz := false })

end Sys2Proof.Machine
end

