-- ==== Sys2Proof/Machine/Operands.lean ====
section
/-! DEFINITION. Bit-level operands: the stream numbering and fields of 00_scope.md R11 and R12, the extensions of R13,
the extractor's read function (41_bitfield.md R120) and its barrel-shifter shape (R121), and the byte lanes of a port
word (20_memory.md R62). -/

namespace Sys2Proof.Machine

/-- `sbit(B, p)`: stream bit `p`, most significant bit of each byte first (00_scope.md R11). -/
def sbit (B : Bytes) (p : Nat) : Nat :=
  ((B.getD (p / 8) 0#8).toNat >>> (7 - p % 8)) % 2

/-- `sfield(B, p, w)`: the `w` stream bits from `p`, first bit most significant (00_scope.md R12). -/
def sfield (B : Bytes) (p : Nat) : Nat → Nat
  | 0 => 0
  | w + 1 => 2 * sfield B p w + sbit B (p + w)

/-- `zext_64(v)` for a `w`-bit `v` (00_scope.md R13). -/
def zext64 (_w v : Nat) : BitVec 64 := BitVec.ofNat 64 v

/-- `sext_64(v)` for a `w`-bit `v`: `v - 2^w` if `v[w-1] = 1`, and `v` otherwise, modulo `2^64` (00_scope.md R13). -/
def sext64 (w v : Nat) : BitVec 64 :=
  BitVec.ofInt 64 (if v.testBit (w - 1) then (v : Int) - (2 : Int) ^ w else (v : Int))

/-- The byte sequence the extractor reads, `PBUF[0..PLEN)` (10_state.md R32). -/
def State.source (s : State) : Bytes := s.bytesAt .pbuf 0 s.plen.toNat

/-- `in_bounds(CUR, w)` (41_bitfield.md R120). -/
abbrev State.inBounds (s : State) (w : Nat) : Prop := s.cur.toNat + w ≤ 8 * s.plen.toNat

/-- `read(CUR, w)` (41_bitfield.md R120). -/
def State.readField (s : State) (w : Nat) : Nat := sfield s.source s.cur.toNat w

/-- The 72-bit window of 41_bitfield.md R121: the nine bytes from index `q`, first byte most significant, 0 for any byte
past the end. -/
def barrelWindow (B : Bytes) (q : Nat) : Nat :=
  (List.range 9).foldl (fun win j => win * 256 + (B.getD (q + j) 0#8).toNat) 0

/-- The barrel shifter's output, `((win << r) mod 2^72) >> (72 - w)` (41_bitfield.md R121). -/
def barrelRead (B : Bytes) (c w : Nat) : Nat :=
  ((barrelWindow B (c / 8) <<< (c % 8)) % 2 ^ 72) >>> (72 - w)

/-- Lane `j` of a port word, bits [8j+7:8j] (20_memory.md R62). -/
def lane (v : Word) (j : Nat) : Byte := v.extractLsb' (8 * j) 8

/-- A port word from its four lanes, lane 0 in bits [7:0] (20_memory.md R62). -/
def ofLanes (b0 b1 b2 b3 : Byte) : Word := b3 ++ b2 ++ b1 ++ b0

end Sys2Proof.Machine
end

