-- ==== Sys2Proof/Machine/Extractor.lean ====
section
/-! DEFINITION. The bit-field extractor's commands (41_bitfield.md): XSETLEN (R130), XLOAD (R131), EXTU (R133), EXTS
(R134) and ALIGN (R137). -/

namespace Sys2Proof.Machine

/-- A new byte sequence of `len` bytes: `PLEN <- len; CUR <- 0; STATUS.XFAIL <- 0` (41_bitfield.md R130, R131). -/
def restart (len : Nat) (s : State) : State :=
  { s with plen := BitVec.ofNat 10 len, cur := 0#13, xfail := false }

/-- A completed read of `w` bits with the value `v`, the cursor moving on by `adv` bits
(41_bitfield.md R132 and R137). -/
def deliver (v : BitVec 64) (w adv : Nat) (s : State) : State :=
  { s with result := v, lastw := BitVec.ofNat 7 w, cur := BitVec.ofNat 13 (s.cur.toNat + adv) }

/-- The common semantics of EXTU and EXTS, by the extension `ext` and the command word (41_bitfield.md R132, R136). -/
def extract (ext : Nat → Nat → BitVec 64) (w : Nat) (peek : Bool) (word : Word) (s : State) :
    Host.Outcome State Fault Refusal :=
  if s.inBounds w then
    .next (succeed (deliver (ext w (s.readField w)) w (if peek then 0 else w) s))
  else
    .next (raise .bounds word s)

/-- XSETLEN n: set the source length (41_bitfield.md R130). -/
def execXsetlen (n : Nat) (s : State) : Host.Outcome State Fault Refusal := .next (succeed (restart n s))

/-- XLOAD k: RANGE where `k >= FCOUNT`, else load the payload of emitted frame `k` (41_bitfield.md R131). -/
def execXload (k : Nat) (s : State) : Host.Outcome State Fault Refusal :=
  if k ≥ s.fcount.toNat then
    .next (raise .range (encode (.xload k)) s)
  else
    .next (succeed (restart (descLen (s.desc k) - 6)
      { s with pbuf := s.pbuf.writeList 0 (s.bytesAt .obuf (descOff (s.desc k) + 3) (descLen (s.desc k) - 6)) }))

/-- EXTU w: unsigned field read (41_bitfield.md R133). -/
def execExtu (w : Nat) (peek : Bool) (s : State) : Host.Outcome State Fault Refusal :=
  extract zext64 w peek (encode (.extu w peek)) s

/-- EXTS w: signed field read (41_bitfield.md R134). -/
def execExts (w : Nat) (peek : Bool) (s : State) : Host.Outcome State Fault Refusal :=
  extract sext64 w peek (encode (.exts w peek)) s

/-- `pad`, the bits from the cursor to the next byte boundary: `(8 * PLEN - CUR) mod 8` (41_bitfield.md R137). -/
def State.pad (s : State) : Nat := (8 * s.plen.toNat - s.cur.toNat) % 8

/-- ALIGN: the padding read, never out of bounds (41_bitfield.md R137; log entry 13). -/
def execAlign (s : State) : Host.Outcome State Fault Refusal :=
  .next (succeed (deliver (zext64 s.pad (s.readField s.pad)) s.pad s.pad s))

end Sys2Proof.Machine
end

