-- ==== Sys2Proof/Machine/Framer.lean ====
section
/-! DEFINITION. The framer (43_framer.md): the test of one position, the scan loop, eviction and compaction as functions
on byte sequences (R171 to R177), and the PUSH command over the block's memories. -/

namespace Sys2Proof.Machine

/-- Byte `j` from a position on; 0 past the end, which no test below looks at. -/
def peekByte (rest : Bytes) (j : Nat) : Byte := rest.getD j 0#8

/-- `L = ((F[1] & 0x03) << 8) | F[2]` (30_encoding.md R96). -/
def lengthField (rest : Bytes) : Nat :=
  ((((peekByte rest 1) &&& 0x03#8).setWidth 10 <<< 8) ||| (peekByte rest 2).setWidth 10).toNat

/-- `T = F[3+L] << 16 | F[4+L] << 8 | F[5+L]` (30_encoding.md R97). -/
def checksumField (rest : Bytes) (L : Nat) : BitVec 24 :=
  peekByte rest (3 + L) ++ peekByte rest (4 + L) ++ peekByte rest (5 + L)

/-- What the scan finds at one position (43_framer.md R173 to R175). -/
inductive Verdict where
  /-- The byte is not the preamble. -/
  | noPreamble
  /-- The candidate's last byte has not arrived. -/
  | incomplete
  /-- The candidate's CRC mismatches. -/
  | falseSync
  /-- A valid frame of that many bytes. -/
  | frame (len : Nat)
  deriving DecidableEq, Repr

/-- The test of position `i` of a working buffer of `n` bytes, `rest` being the bytes from `i` on
(43_framer.md R173, R174). -/
def examine (n i : Nat) (rest : Bytes) : Verdict :=
  if peekByte rest 0 ≠ Config.preamble then .noPreamble
  else if i + 3 + lengthField rest + 3 > n then .incomplete
  else if crc24q (rest.take (3 + lengthField rest)) ≠ checksumField rest (lengthField rest) then .falseSync
  else .frame (6 + lengthField rest)

/-- What a scan leaves: the emitted frames in order, and the drain point. -/
structure Scan where
  frames : List Bytes
  drain : Nat
  deriving DecidableEq, Repr

/-- The scan loop of 43_framer.md R171: scan index `i`, `rest` the bytes of the working buffer from `i` on, and the
drain point so far. Each round advances `i`, so `fuel = n` rounds are enough (R181). `tail` is SCAN_TAIL (R170). -/
def scan (tail n : Nat) : (fuel i : Nat) → Bytes → (drain : Nat) → Scan
  | 0, _, _, drain => { frames := [], drain := drain }
  | fuel + 1, i, rest, drain =>
    if i + tail ≤ n then
      match examine n i rest with
      | .noPreamble => scan tail n fuel (i + 1) (rest.drop 1) drain
      | .incomplete => { frames := [], drain := drain }
      | .falseSync => scan tail n fuel (i + 1) (rest.drop 1) drain
      | .frame len =>
        { frames := rest.take len :: (scan tail n fuel (i + len) (rest.drop len) (i + len)).frames
          drain := (scan tail n fuel (i + len) (rest.drop len) (i + len)).drain }
    else { frames := [], drain := drain }

/-- The scan of a whole working buffer, from position 0 (43_framer.md R173). -/
def scanAll (tail : Nat) (B : Bytes) : Scan := scan tail B.length B.length 0 B 0

/-- Step 3, eviction: `if n - drain > MAXRET then drain <- n - MAXRET` (43_framer.md R176). -/
def evict (n drain maxret : Nat) : Nat := if n - drain > maxret then n - maxret else drain

/-- What a push leaves: the emitted frames and the retained bytes. -/
structure Push where
  frames : List Bytes
  retained : Bytes
  deriving DecidableEq, Repr

/-- Steps 1 to 4 of a push on byte sequences: append, scan, evict, compact (43_framer.md R172 to R177). -/
def pushBytes (tail maxret : Nat) (retained input : Bytes) : Push :=
  let B := retained ++ input
  let r := scanAll tail B
  { frames := r.frames, retained := B.drop (evict B.length r.drain maxret) }

/-- A frame's descriptor: LEN in [26:16], OFF in [14:0] (43_framer.md R177, 10_state.md R41). -/
def descriptor (off len : Nat) : Word := (BitVec.ofNat 32 len <<< 16) ||| BitVec.ofNat 32 off

/-- The descriptors of frames packed back to back from `off` on (43_framer.md R177). -/
def descriptors : (off : Nat) → List Bytes → List Word
  | _, [] => []
  | off, F :: Fs => descriptor off F.length :: descriptors (off + F.length) Fs

/-- Step 4: RBUF, RLEN, OBUF, FDESC, FCOUNT and OBLEN take a push's outcome (43_framer.md R177); what lies above the
lengths becomes unspecified (log entry 11). -/
def storePush (p : Push) (s : State) : State :=
  { s with
    rbuf := Memory.ofList 0 p.retained
    rlen := BitVec.ofNat 15 p.retained.length
    obuf := Memory.ofList 0 p.frames.flatten
    fdesc := Memory.ofList 0 (descriptors 0 p.frames)
    fcount := BitVec.ofNat 12 p.frames.length
    oblen := BitVec.ofNat 15 p.frames.flatten.length }

/-- The retained bytes `RBUF[0..RLEN)` (10_state.md R39). -/
def State.retained (s : State) : Bytes := s.bytesAt .rbuf 0 s.rlen.toNat

/-- PUSH n: RANGE where `n > 4096`, else append `IBUF[0..n)`, scan, emit, evict, compact (43_framer.md R171). -/
def execPush (n : Nat) (s : State) : Host.Outcome State Fault Refusal :=
  if n > Config.ibufCap then
    .next (raise .range (encode (.push n)) s)
  else
    .next (succeed (storePush (pushBytes Config.scanTail s.maxret.toNat s.retained (s.bytesAt .ibuf 0 n)) s))

end Sys2Proof.Machine
end

