-- ==== Sys2Proof/Machine/Dispatch.lean ====
section
/-! DEFINITION. The meaning of every command: one arm per constructor of `Instr` (30_encoding.md R83). -/

namespace Sys2Proof.Machine

def exec (i : Instr) (s : State) : Host.Outcome State Fault Refusal :=
  match i with
  | .nop => Sys2Proof.Machine.execNop s
  | .reset => Sys2Proof.Machine.execReset s
  | .crc a n => Sys2Proof.Machine.execCrc a n s
  | .push n => Sys2Proof.Machine.execPush n s
  | .xsetlen n => Sys2Proof.Machine.execXsetlen n s
  | .xload k => Sys2Proof.Machine.execXload k s
  | .extu w peek => Sys2Proof.Machine.execExtu w peek s
  | .exts w peek => Sys2Proof.Machine.execExts w peek s
  | .align => Sys2Proof.Machine.execAlign s

end Sys2Proof.Machine
end

