-- ==== Sys2Proof/Machine/Flags.lean ====
section
/-! DEFINITION. The STATUS register: its word as the host reads it (10_state.md R25) and its write-1-to-clear bits
(R26). -/

namespace Sys2Proof.Machine

/-- The code of a cause (60_exceptions.md R200). -/
def Cause.code : Cause → BitVec 3
  | .ok => 0#3
  | .illegal => 1#3
  | .range => 2#3
  | .bounds => 3#3

/-- STATUS as a word, most significant bit first: [31:11] zero, [10] HZ, [9] XFAIL, [8] ERR, [7:4] zero, [3:1] CAUSE,
[0] BUSY (10_state.md R25). -/
def State.statusWord (s : State) : Word :=
  0#21 ++ BitVec.ofBool s.hz ++ BitVec.ofBool s.xfail ++ BitVec.ofBool s.err ++ 0#4 ++ s.cause.code ++ BitVec.ofBool s.busy

/-- A host write of `v` to STATUS: bit 8 clears ERR, bit 10 clears HZ, every other bit is ignored (10_state.md R26). -/
def clearStatus (v : Word) (s : State) : State :=
  { s with
    err := s.err && !v.getLsbD 8
    hz := s.hz && !v.getLsbD 10 }

end Sys2Proof.Machine
end

