-- ==== Sys2Proof/Machine/Port.lean ====
section
/-! DEFINITION. The register port (20_memory.md): the address map (R61), `MemRead` and `MemWrite` (R60) with the byte
lanes of the windows (R62), the registers as the host reads and writes them (10_state.md R21), and both accesses while
the engine is busy (70_reset_and_hazards.md R240, R241). -/

namespace Sys2Proof.Machine

/-- The registers of 10_state.md R21, by their rows. -/
inductive Reg where
  | id
  | cmd
  | status
  | errcmd
  | resultLo
  | resultHi
  | lastw
  | crc
  | cur
  | plen
  | rlen
  | fcount
  | oblen
  | maxret
  deriving DecidableEq, Repr

/-- What a port address reaches (20_memory.md R61): a register, word `k` of FDESC, the four bytes of a window from
index `j`, or nothing. -/
inductive Loc where
  | reg (r : Reg)
  | fdesc (k : Nat)
  | window (m : MemName) (j : Nat)
  | reserved
  deriving DecidableEq, Repr

/-- The register at word offset `k` of the register page (10_state.md R21); the offsets from 0x38 on are reserved
(R23). -/
def regAt (k : Nat) : Loc :=
  match k with
  | 0x0 => .reg .id
  | 0x1 => .reg .cmd
  | 0x2 => .reg .status
  | 0x3 => .reg .errcmd
  | 0x4 => .reg .resultLo
  | 0x5 => .reg .resultHi
  | 0x6 => .reg .lastw
  | 0x7 => .reg .crc
  | 0x8 => .reg .cur
  | 0x9 => .reg .plen
  | 0xA => .reg .rlen
  | 0xB => .reg .fcount
  | 0xC => .reg .oblen
  | 0xD => .reg .maxret
  | _ => .reserved

/-- The address map of 20_memory.md R61; address bits [1:0] are ignored (R66). -/
def locate (addr : BitVec 19) : Loc :=
  let a := addr.toNat / 4 * 4
  if a < 0x04000 then regAt (a / 4)
  else if a < 0x08000 then .fdesc ((a - 0x04000) / 4)
  else if a < 0x10000 then .reserved
  else if a < 0x11000 then .window .ibuf (a - 0x10000)
  else if a < 0x20000 then .reserved
  else if a < 0x20400 then .window .pbuf (a - 0x20000)
  else if a < 0x30000 then .reserved
  else if a < 0x35000 then .window .obuf (a - 0x30000)
  else if a < 0x40000 then .reserved
  else if a < 0x45000 then .window .rbuf (a - 0x40000)
  else .reserved

/-- A register as the host reads it while idle: one 32-bit word, bits its row does not list 0 (10_state.md R21); ID is
hard-wired (R22) and CMD reads 0 (R24). -/
def State.regWord (s : State) : Reg → Word
  | .id => Config.idValue
  | .cmd => 0#32
  | .status => s.statusWord
  | .errcmd => s.errcmd
  | .resultLo => s.result.extractLsb' 0 32
  | .resultHi => s.result.extractLsb' 32 32
  | .lastw => s.lastw.setWidth 32
  | .crc => s.crc.setWidth 32
  | .cur => s.cur.setWidth 32
  | .plen => s.plen.setWidth 32
  | .rlen => s.rlen.setWidth 32
  | .fcount => s.fcount.setWidth 32
  | .oblen => s.oblen.setWidth 32
  | .maxret => s.maxret.setWidth 32

/-- A byte of a window as the host reads it while idle, `d` being the byte drawn for this lane: OBUF from OBLEN on and
RBUF from RLEN on are free (20_memory.md R65), and the lane above PBUF[1022] reads 0 (R64). -/
def State.windowByte (s : State) (m : MemName) (j : Nat) (d : Byte) : Byte :=
  match m with
  | .ibuf => s.byteAt .ibuf j
  | .pbuf => if j < Config.pbufCap then s.byteAt .pbuf j else 0#8
  | .obuf => if j < s.oblen.toNat then s.byteAt .obuf j else d
  | .rbuf => if j < s.rlen.toNat then s.byteAt .rbuf j else d

/-- The word the host reads at `l` while idle, `d` being the word drawn for this read (20_memory.md R61 to R65,
10_state.md R23). -/
def State.idleWord (s : State) (l : Loc) (d : Word) : Word :=
  match l with
  | .reg r => s.regWord r
  | .fdesc k => if k < s.fcount.toNat then s.desc k else d
  | .window m j =>
    ofLanes (s.windowByte m j (lane d 0)) (s.windowByte m (j + 1) (lane d 1))
      (s.windowByte m (j + 2) (lane d 2)) (s.windowByte m (j + 3) (lane d 3))
  | .reserved => 0#32

/-- The word the host reads at `l` while busy: only ID and STATUS bit 0 are defined (70_reset_and_hazards.md R241;
log entry 12). -/
def busyWord (l : Loc) (d : Word) : Word :=
  match l with
  | .reg .id => Config.idValue
  | .reg .status => d ||| 1#32
  | _ => d

/-- The word `MemRead(addr, 4)` returns (20_memory.md R60), with the free bits of this read's draw. -/
def State.readWord (s : State) (addr : BitVec 19) : Word :=
  if s.busy then busyWord (locate addr) (Config.draw s.draws) else s.idleWord (locate addr) (Config.draw s.draws)

/-- `MemRead(addr, 4)`: no side effect on the block (20_memory.md R67); the host gets the word, and the next read's free
bits are new ones (log entry 3). -/
def memRead (addr : BitVec 19) (s : State) : State :=
  { s with rdata := s.readWord addr, draws := s.draws + 1 }

/-- A write to a register while idle: CMD issues a command (10_state.md R24), STATUS clears its W1C bits (R26), MAXRET is
set after the clamp (R36), every other register ignores it (R21). -/
def writeReg (r : Reg) (v : Word) (s : State) : State :=
  match r with
  | .cmd => { s with pending := some v }
  | .status => clearStatus v s
  | .maxret => { s with maxret := BitVec.ofNat 15 (min v.toNat Config.maxretLimit) }
  | .id => s
  | .errcmd => s
  | .resultLo => s
  | .resultHi => s
  | .lastw => s
  | .crc => s
  | .cur => s
  | .plen => s
  | .rlen => s
  | .fcount => s
  | .oblen => s

/-- The first `n` lanes of a port word, lane 0 first (20_memory.md R62). -/
def lanes (v : Word) (n : Nat) : Bytes := [lane v 0, lane v 1, lane v 2, lane v 3].take n

/-- A write to a window while idle: the lanes with storage go to IBUF or PBUF (20_memory.md R62 to R64); OBUF and RBUF are
read-only (R65). -/
def writeWindow (m : MemName) (j : Nat) (v : Word) (s : State) : State :=
  match m with
  | .ibuf => { s with ibuf := s.ibuf.writeList j (lanes v 4) }
  | .pbuf => { s with pbuf := s.pbuf.writeList j (lanes v (Config.pbufCap - j)) }
  | .obuf => s
  | .rbuf => s

/-- `MemWrite(addr, 4, v)` (20_memory.md R60): dropped with HZ set while busy (70_reset_and_hazards.md R240), else as the
address map says (R61). -/
def memWrite (addr : BitVec 19) (v : Word) (s : State) : State :=
  if s.busy then { s with hz := true }
  else match locate addr with
    | .reg r => writeReg r v s
    | .fdesc _ => s
    | .window m j => writeWindow m j v s
    | .reserved => s

end Sys2Proof.Machine
end

