-- ==== Sys2Proof/Machine/Engine.lean ====
section
/-! DEFINITION. The agents' moves: the command engine's completion step (10_state.md R42, 30_encoding.md R84), the host's
accesses and polls (20_memory.md R60, 30_encoding.md R87), and the edges of the reset input
(70_reset_and_hazards.md R230). -/

namespace Sys2Proof.Machine

/-- The completion step of the command word `w`: an ILLEGAL word raises ILLEGAL, any other runs its command's rule; then
the pending command becomes none (30_encoding.md R84, 10_state.md R42). -/
def runWord (w : Word) (s : State) : Host.Outcome State Fault Refusal :=
  match decode w with
  | .error _ => .next (finish (raise .illegal w s))
  | .ok i => complete (exec i s)

/-- The engine's turn: it completes the pending command; with none, or while the reset input is asserted, it waits
(10_state.md R42, 70_reset_and_hazards.md R230, R232). -/
def engineTurn (s : State) : Host.Outcome State Fault Refusal :=
  if s.inReset then .next s
  else match s.pending with
    | none => .next s
    | some w => runWord w s

/-- A host access: it has no step while the reset input is asserted (70_reset_and_hazards.md R230; log entry 8). -/
def hostTurn (access : State → State) (s : State) : Host.Outcome State Fault Refusal :=
  if s.inReset then .fault .portAccessInReset else .next (access s)

/-- STATUS, 0x00008 (10_state.md R25). -/
def statusAddr : BitVec 19 := 0x00008#19

/-- CMD, 0x00004 (10_state.md R24). -/
def cmdAddr : BitVec 19 := 0x00004#19

/-- The host's poll: while busy the host's turn is spent waiting and stays, and the engine completes; then STATUS is read
(30_encoding.md R87, 70_reset_and_hazards.md R242; log entry 2). -/
def pollTurn (s : State) : Host.Outcome State Fault Refusal :=
  if s.busy && !s.inReset then engineTurn { s with turns := .poll :: s.turns }
  else hostTurn (memRead statusAddr) s

/-- One move, `s.turns` being the moves after it. -/
def takeTurn (t : Turn) (s : State) : Host.Outcome State Fault Refusal :=
  match t with
  | .engine => engineTurn s
  | .read addr => hostTurn (memRead addr) s
  | .write addr v => hostTurn (memWrite addr v) s
  | .poll => pollTurn s
  | .assertReset => .next (assertReset s)
  | .releaseReset => .next (releaseReset s)

/-! The host operations of 30_encoding.md R87. -/

/-- `WR addr, v`. -/
def hostWR (addr : BitVec 19) (v : Word) : List Turn := [.write addr v]

/-- `RD addr`. -/
def hostRD (addr : BitVec 19) : List Turn := [.read addr]

/-- `POLL`. -/
def hostPOLL : List Turn := [.poll]

/-- `ISSUE` of a command word: `WR 0x00004, <word>` followed by `POLL`. -/
def issueWord (w : Word) : List Turn := hostWR cmdAddr w ++ hostPOLL

/-- `ISSUE cmd`. -/
def hostISSUE (i : Instr) : List Turn := issueWord (encode i)

end Sys2Proof.Machine
end

