-- ==== Sys2Proof/Machine/Step.lean ====
section
/-! DEFINITION. The step: the next move of `turns`, and the engine's turn when no other move is left. -/

namespace Sys2Proof.Machine

/-- One step. The moves happen in the order `turns` gives; when none is left the engine moves, so that a pending command
always completes (10_state.md R42, 20_memory.md R68, 70_reset_and_hazards.md R243; log entry 1). -/
def step (s : State) : Host.Outcome State Fault Refusal :=
  match s.turns with
  | [] => engineTurn s
  | t :: ts => takeTurn t { s with turns := ts }

/-- `s` with the command word `w` pending and the engine's turn next: what an accepted CMD write leaves just before the
completion step (10_state.md R24, R42; log entry 10). A command is one 32-bit word, so the bits at or above `nbits` are
zero. -/
def State.withFetchWord (s : State) (nbits w : Nat) : State :=
  { s with
    pending := some (BitVec.ofNat 32 (w % 2 ^ nbits))
    turns := .engine :: s.turns
    inReset := false }

end Sys2Proof.Machine
end

