-- ==== Sys2Proof/Machine/Assembler.lean ====
section
/-! DEFINITION. The assembler syntax of 30_encoding.md R87, with the pseudo-commands of R88 and the host operations
`WR`, `RD`, `POLL` and `ISSUE`: from one line of text to the command, or to the host's moves (log entry 14). -/

namespace Sys2Proof.Machine.Assembler

/-- A blank: a space or a tab. -/
def isBlank (c : Char) : Bool := c == ' ' || c == '\t'

/-- `;` starts a comment (30_encoding.md R87). -/
def stripComment (cs : List Char) : List Char := cs.takeWhile (· != ';')

/-- A text without blanks at its two ends. -/
def trim (cs : List Char) : List Char := ((cs.dropWhile isBlank).reverse.dropWhile isBlank).reverse

/-- The parts of a text between commas (30_encoding.md R87: "operands separated by commas"). -/
def splitCommas : List Char → List (List Char)
  | [] => [[]]
  | c :: cs =>
    if c == ',' then [] :: splitCommas cs
    else match splitCommas cs with
      | [] => [[c]]
      | p :: ps => (c :: p) :: ps

/-- A hexadecimal digit's value; a decimal digit is one below 10. -/
def digit (c : Char) : Option Nat :=
  let n := c.toNat
  if 48 ≤ n ∧ n ≤ 57 then some (n - 48)
  else if 65 ≤ n ∧ n ≤ 70 then some (n - 55)
  else if 97 ≤ n ∧ n ≤ 102 then some (n - 87)
  else none

/-- The digits of a number in a base, most significant first, continued from `acc`. -/
def digits (base : Nat) : List Char → Nat → Option Nat
  | [], acc => some acc
  | c :: cs, acc =>
    match digit c with
    | some d => if d < base then digits base cs (acc * base + d) else none
    | none => none

/-- "Numbers are decimal, or hexadecimal with a `0x` prefix" (30_encoding.md R87). -/
def number (cs : List Char) : Option Nat :=
  match cs with
  | [] => none
  | '0' :: 'x' :: c :: cs => digits 16 (c :: cs) 0
  | c :: cs => digits 10 (c :: cs) 0

/-- A line's mnemonic and the text after it. -/
def splitMnemonic (cs : List Char) : List Char × List Char :=
  let t := trim (stripComment cs)
  (t.takeWhile (fun c => !isBlank c), trim (t.dropWhile (fun c => !isBlank c)))

/-- The operands of a line: none for an empty text, else the numbers between commas. -/
def operands (cs : List Char) : Option (List Nat) :=
  if cs.isEmpty then some [] else (splitCommas cs).mapM fun p => number (trim p)

/-- The syntax column of 30_encoding.md R87 and the pseudo column of R88. -/
def command (mnemonic : List Char) (ops : List Nat) : Option Instr :=
  match mnemonic, ops with
  | ['N', 'O', 'P'], [] => some .nop
  | ['R', 'E', 'S', 'E', 'T'], [] => some .reset
  | ['C', 'R', 'C'], [a, n] => some (.crc a n)
  | ['P', 'U', 'S', 'H'], [n] => some (.push n)
  | ['X', 'S', 'E', 'T', 'L', 'E', 'N'], [n] => some (.xsetlen n)
  | ['X', 'L', 'O', 'A', 'D'], [k] => some (.xload k)
  | ['E', 'X', 'T', 'U'], [w] => some (.extu w false)
  | ['E', 'X', 'T', 'U', '.', 'P'], [w] => some (.extu w true)
  | ['E', 'X', 'T', 'S'], [w] => some (.exts w false)
  | ['E', 'X', 'T', 'S', '.', 'P'], [w] => some (.exts w true)
  | ['A', 'L', 'I', 'G', 'N'], [] => some .align
  | ['E', 'X', 'T', 'B'], [] => some .extb
  | ['E', 'X', 'T', 'B', '.', 'P'], [] => some .extbPeek
  | ['P', 'E', 'E', 'K', 'U'], [w] => some (.peeku w)
  | ['P', 'E', 'E', 'K', 'S'], [w] => some (.peeks w)
  | ['D', 'I', 'S', 'P', 'A', 'T', 'C', 'H'], [] => some .dispatch
  | ['S', 'K', 'I', 'P'], [w] => some (.skip w)
  | _, _ => none

/-- A command line: its command, refused where an operand lies outside its limits (30_encoding.md R87). A line with no
command (blank, or a comment alone) has none (DESIGN CHOICE, log entry 14: R87 does not say what it assembles to). -/
def parseCommand (cs : List Char) : Option Instr :=
  match operands (splitMnemonic cs).2 with
  | none => none
  | some ops =>
    match command (splitMnemonic cs).1 ops with
    | none => none
    | some i => if i.wellFormed then some i else none

/-- The word an `ISSUE` line issues: a command's, or a bare number's, as the programs of 95_test_vectors.md write it. -/
def issuedWord (cs : List Char) : Option Word :=
  match number (trim (stripComment cs)) with
  | some n => if n < 2 ^ 32 then some (BitVec.ofNat 32 n) else none
  | none => (parseCommand cs).map encode

/-- A host line: `WR addr, v`, `RD addr`, `POLL` or `ISSUE cmd`, as the host's moves (30_encoding.md R87). A line with
nothing but blanks or a comment, as program P3 of 95_test_vectors.md has one, stands for no move, and is not refused
(DESIGN CHOICE, log entry 14: R87 does not name such a line). -/
def parseHost (cs : List Char) : Option (List Turn) :=
  match splitMnemonic cs with
  | ([], []) => some []
  | (['P', 'O', 'L', 'L'], []) => some hostPOLL
  | (['I', 'S', 'S', 'U', 'E'], rest) => (issuedWord rest).map issueWord
  | (['R', 'D'], rest) =>
    match operands rest with
    | some [a] => if a < 2 ^ 19 then some (hostRD (BitVec.ofNat 19 a)) else none
    | _ => none
  | (['W', 'R'], rest) =>
    match operands rest with
    | some [a, v] =>
      if a < 2 ^ 19 ∧ v < 2 ^ 32 then some (hostWR (BitVec.ofNat 19 a) (BitVec.ofNat 32 v)) else none
    | _ => none
  | _ => none

/-- The word of one line of a command listing; none for a refused line, and for a line with no command
(`parseCommand`; DESIGN CHOICE, log entry 14). -/
def assemble (line : String) : Option Word := (parseCommand line.toList).map encode

/-- One line of a host program. -/
def assembleHost (line : String) : Option (List Turn) := parseHost line.toList

end Sys2Proof.Machine.Assembler
end

