-- ==== Sys2Proof/Safety.lean ====
section
/-! DEFINITION. The terms the claims are stated in: the invariants of 10_state.md R44, the valid frame of
43_framer.md R178, when a command fails (60_exceptions.md R202), the scan of 43_framer.md R173 to R175 as a relation,
sequences of pushes and of reads, and what it means that memory is unchanged. -/

namespace Sys2Proof.Machine

/-! ## Memory unchanged, byte by byte -/

/-- Every byte of every memory, and every word of FDESC, reads in `t` as it does in `s`. -/
abbrev SameMemory (s t : State) : Prop :=
  (∀ m a, t.byteAt m a = s.byteAt m a) ∧ ∀ k, t.desc k = s.desc k

/-! ## The invariants of 10_state.md R44 -/

/-- The bounds (a) to (d) of R44 (b is the width of PLEN), and MAXRET's legal values (R36). -/
abbrev State.BoundsInv (s : State) : Prop :=
  s.cur.toNat ≤ 8 * s.plen.toNat ∧ s.rlen.toNat ≤ 16384 ∧ s.fcount.toNat ≤ 3413 ∧ s.oblen.toNat ≤ 20480 ∧
    s.maxret.toNat ≤ 16384

/-- Every memory has its canonical form and stays within its capacity (10_state.md R37 to R41). -/
abbrev State.MemoryInv (s : State) : Prop :=
  (Memory.wf s.ibuf ∧ Memory.within 4096 s.ibuf) ∧ (Memory.wf s.pbuf ∧ Memory.within 1023 s.pbuf) ∧
    (Memory.wf s.rbuf ∧ Memory.within 20480 s.rbuf) ∧ (Memory.wf s.obuf ∧ Memory.within 20480 s.obuf) ∧
    (Memory.wf s.fdesc ∧ Memory.within 4096 s.fdesc)

/-- A frame: preamble, length, and a checksum that is the CRC-24Q of what precedes it (43_framer.md R178,
30_encoding.md R95 to R97). -/
abbrev ValidFrame (F : Bytes) : Prop :=
  peekByte F 0 = 0xD3#8 ∧ F.length = 6 + lengthField F ∧
    checksumField F (lengthField F) = crc24q (F.take (3 + lengthField F))

/-- The bytes of emitted frame `k`, by its descriptor (10_state.md R40, R41). -/
def State.frameBytes (s : State) (k : Nat) : Bytes := s.bytesAt .obuf (descOff (s.desc k)) (descLen (s.desc k))

/-- The first `n` lengths of the descriptor table, added up. -/
def State.lenSum (s : State) : Nat → Nat
  | 0 => 0
  | n + 1 => s.lenSum n + descLen (s.desc n)

/-- The frame output: offsets follow from the lengths and OBLEN is their sum (10_state.md R41, R44 (e)), and every
emitted frame is valid (R44 (f)). -/
abbrev State.OutputInv (s : State) : Prop :=
  s.oblen.toNat = s.lenSum s.fcount.toNat ∧
    ∀ k, k < s.fcount.toNat → descOff (s.desc k) = s.lenSum k ∧ ValidFrame (s.frameBytes k)

/-- The invariant of 10_state.md R44, (a) to (f). -/
abbrev State.Inv (s : State) : Prop := s.BoundsInv ∧ s.MemoryInv ∧ s.OutputInv

end Sys2Proof.Machine

namespace Sys2Proof

/-! ## When a command fails (60_exceptions.md R202) -/

/-- The RANGE column of 60_exceptions.md R202. -/
abbrev Instr.RangeFails (s : Machine.State) : Instr → Prop
  | .nop => False
  | .reset => False
  | .crc a n => a + n > 4096
  | .push n => n > 4096
  | .xsetlen _ => False
  | .xload k => k ≥ s.fcount.toNat
  | .extu _ _ => False
  | .exts _ _ => False
  | .align => False

/-- The BOUNDS column of 60_exceptions.md R202. -/
abbrev Instr.BoundsFails (s : Machine.State) : Instr → Prop
  | .nop => False
  | .reset => False
  | .crc _ _ => False
  | .push _ => False
  | .xsetlen _ => False
  | .xload _ => False
  | .extu w _ => s.cur.toNat + w > 8 * s.plen.toNat
  | .exts w _ => s.cur.toNat + w > 8 * s.plen.toNat
  | .align => False

end Sys2Proof

namespace Sys2Proof.Machine

/-- The words of 30_encoding.md R85: OP is 0x09 to 0x3F, or a bit reserved by the opcode's format (R81) is 1. -/
abbrev IllegalWord (w : Word) : Prop :=
  field w 31 26 ≥ 0x09 ∨
  (field w 31 26 = 0x00 ∨ field w 31 26 = 0x01 ∨ field w 31 26 = 0x08) ∧ field w 25 0 ≠ 0 ∨
  field w 31 26 = 0x02 ∧ field w 25 25 ≠ 0 ∨
  field w 31 26 = 0x03 ∧ field w 25 13 ≠ 0 ∨
  field w 31 26 = 0x04 ∧ field w 25 10 ≠ 0 ∨
  field w 31 26 = 0x05 ∧ field w 25 12 ≠ 0 ∨
  (field w 31 26 = 0x06 ∨ field w 31 26 = 0x07) ∧ field w 25 7 ≠ 0

/-- The command word `w` is pending and the next step is its completion step: the reset input is low, and the next move is
the engine's, or a poll, or there is none (log entries 1 and 2). -/
abbrev State.Completing (s : State) (w : Word) : Prop :=
  s.pending = some w ∧ s.inReset = false ∧
    (s.turns = [] ∨ s.turns.head? = some .engine ∨ s.turns.head? = some .poll)

/-- The moves still to come after a completion step: the engine's turn is spent, a poll stays (log entry 2). -/
def State.movesLeft (s : State) : List Turn := if s.turns.head? = some .poll then s.turns else s.turns.tail

/-! ## The scan of 43_framer.md R173 to R175, as a relation on indices -/

/-- Byte `i` of a working buffer, as a number. -/
def byteNat (B : Bytes) (i : Nat) : Nat := (B.getD i 0#8).toNat

/-- `L` of the candidate at `i`, by 43_framer.md R174 in numbers: the low two bits of the second byte, then the third. -/
def lengthAt (B : Bytes) (i : Nat) : Nat := byteNat B (i + 1) % 4 * 256 + byteNat B (i + 2)

/-- The CRC of the candidate at `i` matches (43_framer.md R174), in numbers. -/
abbrev CrcMatches (B : Bytes) (i : Nat) : Prop :=
  (crc24q ((B.drop i).take (3 + lengthAt B i))).toNat =
    byteNat B (i + 3 + lengthAt B i) * 65536 + byteNat B (i + 4 + lengthAt B i) * 256 + byteNat B (i + 5 + lengthAt B i)

/-- `ScanRun tail B i drain frames drain'`: the scan loop of 43_framer.md R173 to R175, entered at position `i` with that
drain point, ends having emitted `frames` and with the drain point `drain'`. -/
inductive ScanRun (tail : Nat) (B : Bytes) : Nat → Nat → List Bytes → Nat → Prop where
  /-- Fewer than `tail` bytes are left (R173). -/
  | atEnd {i drain : Nat} (short : i + tail > B.length) : ScanRun tail B i drain [] drain
  /-- The byte is not the preamble: go on at `i + 1` (R173). -/
  | skip {i drain : Nat} {frames : List Bytes} {drain' : Nat} (room : i + tail ≤ B.length)
      (other : byteNat B i ≠ 0xD3) (go : ScanRun tail B (i + 1) drain frames drain') :
      ScanRun tail B i drain frames drain'
  /-- An incomplete candidate stops the scan (R174). -/
  | incomplete {i drain : Nat} (room : i + tail ≤ B.length) (pre : byteNat B i = 0xD3)
      (waiting : i + 3 + lengthAt B i + 3 > B.length) : ScanRun tail B i drain [] drain
  /-- A mismatch is a false sync: go on at `i + 1`, the drain point unchanged (R175). -/
  | falseSync {i drain : Nat} {frames : List Bytes} {drain' : Nat} (room : i + tail ≤ B.length)
      (pre : byteNat B i = 0xD3) (whole : i + 3 + lengthAt B i + 3 ≤ B.length) (differs : ¬CrcMatches B i)
      (go : ScanRun tail B (i + 1) drain frames drain') : ScanRun tail B i drain frames drain'
  /-- A match emits the frame and goes on at its end, which becomes the drain point (R175). -/
  | frame {i drain : Nat} {frames : List Bytes} {drain' : Nat} (room : i + tail ≤ B.length)
      (pre : byteNat B i = 0xD3) (whole : i + 3 + lengthAt B i + 3 ≤ B.length) (agrees : CrcMatches B i)
      (go : ScanRun tail B (i + 6 + lengthAt B i) (i + 6 + lengthAt B i) frames drain') :
      ScanRun tail B i drain ((B.drop i).take (6 + lengthAt B i) :: frames) drain'

/-- The working buffer of a PUSH of `n` bytes, `RBUF[0..RLEN) ++ IBUF[0..n)` (43_framer.md R172). -/
def State.workBuffer (s : State) (n : Nat) : Bytes := s.retained ++ s.bytesAt .ibuf 0 n

/-- Stream bit `p` of PBUF: bit `7 - (p mod 8)` of byte `p div 8` (00_scope.md R11). -/
def State.streamBit (s : State) (p : Nat) : Bool := (s.byteAt .pbuf (p / 8)).getLsbD (7 - p % 8)

/-! ## Sequences -/

/-- The frames of a stream pushed in chunks, one push after the other, from a retained buffer (43_framer.md R183). -/
def pushChunks (tail maxret : Nat) : Bytes → List Bytes → List Bytes
  | _, [] => []
  | retained, c :: cs =>
    (pushBytes tail maxret retained c).frames ++ pushChunks tail maxret (pushBytes tail maxret retained c).retained cs

/-- A sequence of commands that all complete with CAUSE = 0 (41_bitfield.md R139): the state after the last one, none as
soon as one does not. -/
def runAll : List Instr → State → Option State
  | [], s => some s
  | i :: is, s =>
    match exec i s with
    | .next t => if t.cause = .ok then runAll is t else none
    | .fault _ => none
    | .refused _ => none

/-- How far a completed command moves the cursor from `c`, for the commands that do not set it (41_bitfield.md R139): the
width of a consuming read, the pad width of an ALIGN. -/
def advance (c : Nat) : Instr → Nat
  | .extu w peek => if peek then 0 else w
  | .exts w peek => if peek then 0 else w
  | .align => (8 - c % 8) % 8
  | .nop => 0
  | .crc _ _ => 0
  | .push _ => 0
  | .reset => 0
  | .xsetlen _ => 0
  | .xload _ => 0

/-- Where the cursor stands after commands that all complete, having stood at `c` (41_bitfield.md R139). -/
def cursorAfter : List Instr → (c : Nat) → Nat
  | [], c => c
  | i :: is, c => cursorAfter is (c + advance c i)

/-- One field of a layout as the consuming read of its width, signed or unsigned (41_bitfield.md R133, R134). -/
def fieldRead (f : Nat × Bool) : Instr := if f.2 then .exts f.1 false else .extu f.1 false

/-! ## Numbers as text -/

/-- `Numeral cs v`: the text `cs` writes the number `v` as 30_encoding.md R87 says, in decimal, or in hexadecimal after
`0x` (digits of either case, log entry 14). -/
inductive Numeral : List Char → Nat → Prop where
  /-- Decimal digits `ds`, most significant first. -/
  | decimal (ds : List Nat) (some : ds ≠ []) (digit : ∀ d ∈ ds, d < 10) :
      Numeral (ds.map Nat.digitChar) (Nat.ofDigits 10 ds.reverse)
  /-- Hexadecimal digits `ds`, most significant first, written as `hs`. -/
  | hexadecimal (hs : List Char) (ds : List Nat) (some : ds ≠ []) (digit : ∀ d ∈ ds, d < 16)
      (written : hs.map Char.toLower = ds.map Nat.digitChar) :
      Numeral ('0' :: 'x' :: hs) (Nat.ofDigits 16 ds.reverse)

end Sys2Proof.Machine
end

