-- ==== Sys2Proof/Certificates/Slice0/Obligations.lean ====
section
/-! DEFINITION. The statements for the provers: what the rules of spec/ say the block does, family by family and for
the machine as a whole. Each docstring names the rule it formalises, or the sections and the log entry it rests on. -/

open Sys2Proof Sys2Proof.Machine

/-! ## Encoding (30_encoding.md) -/

/-- The example words of 30_encoding.md section 2, one or more for each of the nine commands, decode to the commands they
stand for, and the two ILLEGAL examples are rejected by name. -/
def Obligations.ExampleWordsDecode : Prop :=
  decode 0x00000000#32 = .ok .nop ∧ decode 0x04000000#32 = .ok .reset ∧
  decode 0x08009000#32 = .ok (.crc 0 9) ∧ decode 0x09000001#32 = .ok (.crc 1 4096) ∧
  decode 0x0C000019#32 = .ok (.push 25) ∧ decode 0x1000000A#32 = .ok (.xsetlen 10) ∧
  decode 0x14000000#32 = .ok (.xload 0) ∧ decode 0x1800000B#32 = .ok (.extu 12 false) ∧
  decode 0x1800004B#32 = .ok (.extu 12 true) ∧ decode 0x1800003F#32 = .ok (.extu 64 false) ∧
  decode 0x1C000025#32 = .ok (.exts 38 false) ∧ decode 0x20000000#32 = .ok .align ∧
  decode 0x24000000#32 = .error .undefinedOpcode ∧ decode 0x18000080#32 = .error .reservedBitSet

/-- Decoding the encoding of any well-formed command gives it back, every operand at every value its field admits
(30_encoding.md sections 1 and 2). -/
def Obligations.DecodeOfEncodeIsIdentity : Prop :=
  ∀ i : Instr, i.WellFormed → decode (encode i) = .ok i

/-- Every word that decodes is the encoding of the well-formed command it decodes to: no bit of a word is dropped
(30_encoding.md sections 1 and 2). -/
def Obligations.EncodeOfDecodeIsIdentity : Prop :=
  ∀ (w : Word) (i : Instr), decode w = .ok i → i.WellFormed ∧ encode i = w

/-- 30_encoding.md R85: a word is rejected exactly in the rule's two cases; completing a rejected word changes only CAUSE,
ERR and ERRCMD (and ends the command); the all-zero word is NOP. -/
def Obligations.IllegalWordsAreExactlyThoseOfR85 : Prop :=
  (∀ w : Word, (∃ r, decode w = .error r) ↔ IllegalWord w) ∧
  (∀ (s : State) (w : Word), s.Completing w → IllegalWord w →
    step s = .next { s with
      cause := .illegal, err := true, errcmd := w, pending := none, turns := s.movesLeft }) ∧
  decode 0#32 = .ok .nop

/-- The words of the pseudo-commands (30_encoding.md section 2, the pseudo-command table). -/
def Obligations.PseudoCommandWords : Prop :=
  encode Instr.extb = 0x18000000#32 ∧ encode Instr.extbPeek = 0x18000040#32 ∧
  encode Instr.dispatch = 0x1800004B#32 ∧
  ∀ w, 1 ≤ w → w ≤ 64 →
    encode (Instr.peeku w) = 0x18000040#32 ||| BitVec.ofNat 32 (w - 1) ∧
    encode (Instr.peeks w) = 0x1C000040#32 ||| BitVec.ofNat 32 (w - 1) ∧
    encode (Instr.skip w) = 0x18000000#32 ||| BitVec.ofNat 32 (w - 1)

/-- The assembler: the line written for each row of the syntax and pseudo-command tables, with its numbers in decimal or
hexadecimal, parses to that row's command exactly when its operands lie inside their limits, and is refused otherwise; a
comment changes nothing; whatever is accepted is well-formed and its word decodes back to it; and the host lines `POLL`,
`RD`, `WR` and `ISSUE` of an accepted command stand for their moves (30_encoding.md section 2; the text's details are the
model's choices of log entry 14). -/
def Obligations.AssembledWordsDecode : Prop :=
  (∀ (line : List Char) (i : Instr),
    Assembler.parseCommand line = some i → i.WellFormed ∧ decode (encode i) = .ok i) ∧
  (Assembler.parseCommand "NOP".toList = some .nop ∧ Assembler.parseCommand "RESET".toList = some .reset ∧
    Assembler.parseCommand "ALIGN".toList = some .align ∧ Assembler.parseCommand "EXTB".toList = some (.extu 1 false) ∧
    Assembler.parseCommand "EXTB.P".toList = some (.extu 1 true) ∧
    Assembler.parseCommand "DISPATCH".toList = some (.extu 12 true)) ∧
  (∀ (x y : List Char) (a n : Nat), Numeral x a → Numeral y n →
    Assembler.parseCommand ("CRC ".toList ++ x ++ ", ".toList ++ y) =
      if a ≤ 4095 ∧ n ≤ 8191 then some (.crc a n) else none) ∧
  (∀ (x : List Char) (v : Nat), Numeral x v →
    Assembler.parseCommand ("PUSH ".toList ++ x) = (if v ≤ 8191 then some (.push v) else none) ∧
    Assembler.parseCommand ("XSETLEN ".toList ++ x) = (if v ≤ 1023 then some (.xsetlen v) else none) ∧
    Assembler.parseCommand ("XLOAD ".toList ++ x) = (if v ≤ 4095 then some (.xload v) else none) ∧
    Assembler.parseCommand ("EXTU ".toList ++ x) = (if 1 ≤ v ∧ v ≤ 64 then some (.extu v false) else none) ∧
    Assembler.parseCommand ("EXTU.P ".toList ++ x) = (if 1 ≤ v ∧ v ≤ 64 then some (.extu v true) else none) ∧
    Assembler.parseCommand ("EXTS ".toList ++ x) = (if 1 ≤ v ∧ v ≤ 64 then some (.exts v false) else none) ∧
    Assembler.parseCommand ("EXTS.P ".toList ++ x) = (if 1 ≤ v ∧ v ≤ 64 then some (.exts v true) else none) ∧
    Assembler.parseCommand ("PEEKU ".toList ++ x) = (if 1 ≤ v ∧ v ≤ 64 then some (.extu v true) else none) ∧
    Assembler.parseCommand ("PEEKS ".toList ++ x) = (if 1 ≤ v ∧ v ≤ 64 then some (.exts v true) else none) ∧
    Assembler.parseCommand ("SKIP ".toList ++ x) = (if 1 ≤ v ∧ v ≤ 64 then some (.extu v false) else none)) ∧
  (∀ line comment : List Char, Assembler.parseCommand (line ++ ';' :: comment) = Assembler.parseCommand line) ∧
  Assembler.parseHost "POLL".toList = some [.poll] ∧
  (∀ (x : List Char) (a : Nat), Numeral x a → a < 2 ^ 19 →
    Assembler.parseHost ("RD ".toList ++ x) = some [.read (BitVec.ofNat 19 a)]) ∧
  (∀ (x y : List Char) (a v : Nat), Numeral x a → Numeral y v → a < 2 ^ 19 → v < 2 ^ 32 →
    Assembler.parseHost ("WR ".toList ++ x ++ ", ".toList ++ y) =
      some [.write (BitVec.ofNat 19 a) (BitVec.ofNat 32 v)]) ∧
  ∀ (line : List Char) (i : Instr), Assembler.parseCommand line = some i →
    Assembler.parseHost ("ISSUE ".toList ++ line) = some [.write 0x00004#19 (encode i), .poll]

/-! ## The completion step (10_state.md R42, 30_encoding.md R84, 60_exceptions.md) -/

/-- When the pending word decodes to a command and the engine moves, the step is `exec` of that command followed by the end
of the completion step; a poll at the head of the moves also lets the engine move, and stays, and a rejected word completed
by a poll has the ILLEGAL result and nothing else (10_state.md section 4, 30_encoding.md section 1; log entries 1 and 2). -/
def Obligations.StepRunsTheDecodedCommand : Prop :=
  (∀ (s : State) (w : Word) (i : Instr), s.Completing w → decode w = .ok i →
    step s = complete (exec i { s with turns := s.movesLeft })) ∧
  (∀ (s : State) (w : Word) (i : Instr), s.pending = some w → s.inReset = false → s.turns.head? = some .poll →
    decode w = .ok i → step s = complete (exec i s)) ∧
  ∀ (s : State) (w : Word) (r : Reject), s.pending = some w → s.inReset = false → s.turns.head? = some .poll →
    decode w = .error r →
    step s = .next { s with cause := .illegal, err := true, errcmd := w, pending := none }

/-- Whatever word is pending, its completion step gives a next state with no command pending, so BUSY = 0, and nothing of the
outside world changed (10_state.md section 4). That the engine's turn, a poll, or a step with no move left is the completion
step is the model's choice (log entries 1 and 2). While the reset input is asserted the engine waits instead, and its turn
leaves the block as it is (70_reset_and_hazards.md section 1 with log entry 9). -/
def Obligations.EveryPendingWordCompletes : Prop :=
  (∀ (s : State) (w : Word), s.Completing w →
    ∃ t, step s = .next t ∧ t.pending = none ∧ t.busy = false ∧
      t = { t with turns := s.movesLeft, inReset := false, rdata := s.rdata, draws := s.draws, epoch := s.epoch }) ∧
  (∀ (s : State) (ts : List Turn), s.inReset = true → s.turns = .engine :: ts →
    step s = .next { s with turns := ts }) ∧
  ∀ s : State, s.inReset = true → s.turns = [] → step s = .next s

/-- 30_encoding.md R84: the check order ILLEGAL, RANGE, BOUNDS decides the cause; with no failing
check the command's rule is performed and the cause is OK. -/
def Obligations.CauseFollowsTheCheckOrder : Prop :=
  ∀ (s t : State) (w : Word), s.Completing w → step s = .next t →
    (IllegalWord w → t.cause = .illegal) ∧
    ∀ i, decode w = .ok i →
      (i.RangeFails s → t.cause = .range) ∧
      (¬i.RangeFails s → i.BoundsFails s → t.cause = .bounds) ∧
      (¬i.RangeFails s → ¬i.BoundsFails s →
        t.cause = .ok ∧ step s = complete (exec i { s with turns := s.movesLeft }))

/-- 60_exceptions.md R202: which commands raise RANGE and BOUNDS, and when; every command can raise ILLEGAL, since each
opcode has a word that is rejected. -/
def Obligations.CausesByCommand : Prop :=
  (∀ (i : Instr) (s t : State), exec i s = .next t →
    (t.cause = .range ↔ i.RangeFails s) ∧ (t.cause = .bounds ↔ i.BoundsFails s) ∧ t.cause ≠ .illegal) ∧
  (∀ op, op < 9 → ∃ w r, field w 31 26 = op ∧ decode w = .error r)

/-- 60_exceptions.md R201: a command that completes with CAUSE other than OK has written CAUSE, ERR, ERRCMD (the command
word) and, for BOUNDS, XFAIL; every other register and memory keeps its value, and the command has completed. -/
def Obligations.FailedCommandHasNoOtherEffect : Prop :=
  ∀ (s t : State) (w : Word), s.Completing w → step s = .next t → t.cause ≠ .ok →
    t = { s with
      cause := t.cause, err := true, errcmd := w, xfail := (if t.cause = .bounds then true else s.xfail),
      pending := none, turns := s.movesLeft } ∧
    SameMemory s t

/-- 10_state.md R27: ERRCMD is the word of the most recent command that completed with CAUSE other than 0; a success does
not change it; RESET and hardware reset set it to 0; it is read-only, at offset 0x0000C. -/
def Obligations.ErrcmdHoldsTheLastFailingWord : Prop :=
  (∀ (s t : State) (w : Word), s.Completing w → step s = .next t →
    (t.cause ≠ .ok → t.errcmd = w) ∧
    (t.cause = .ok → decode w ≠ .ok .reset → t.errcmd = s.errcmd) ∧
    (decode w = .ok .reset → t.errcmd = 0#32)) ∧
  (∀ s : State, (hardReset s).errcmd = 0#32) ∧
  ∀ s : State, s.pending = none →
    s.readWord 0x0000C#19 = s.errcmd ∧ ∀ v, memWrite 0x0000C#19 v s = s

/-- 70_reset_and_hazards.md R232: after reset the block waits; with no command pending and no move to come, a step changes
nothing. -/
def Obligations.IdleBlockWaits : Prop :=
  step State.reset = .next State.reset ∧
  ∀ s : State, s.pending = none → s.turns = [] → step s = .next s

/-! ## Control commands (40_control.md) -/

/-- 40_control.md R110: NOP's word, its one effect, its ILLEGAL words; memory is unchanged; after a BOUNDS failure
(STATUS 0x306) STATUS becomes 0x300. -/
def Obligations.NopResult : Prop :=
  encode .nop = 0#32 ∧
  (∀ s : State, exec .nop s = .next { s with cause := .ok } ∧ SameMemory s { s with cause := .ok }) ∧
  (∀ w : Word, field w 31 26 = 0x00 → field w 25 0 ≠ 0 → ∃ r, decode w = .error r) ∧
  (∀ s : State, s.statusWord = 0x306#32 → ∃ t, exec .nop s = .next t ∧ t.statusWord = 0x300#32)

/-- 40_control.md R111: RESET's word, every register it writes with its value, MAXRET and every memory unchanged, and its
ILLEGAL words. -/
def Obligations.ResetResult : Prop :=
  encode .reset = 0x04000000#32 ∧
  (∀ s : State, ∃ t, exec .reset s = .next t ∧
    t = { s with
      rlen := 0#15, fcount := 0#12, oblen := 0#15, plen := 0#10, cur := 0#13, result := 0#64, lastw := 0#7,
      crc := 0#24, errcmd := 0#32, err := false, xfail := false, hz := false, cause := .ok } ∧
    t.maxret = s.maxret ∧ SameMemory s t) ∧
  (∀ w : Word, field w 31 26 = 0x01 → field w 25 0 ≠ 0 → ∃ r, decode w = .error r)

/-! ## The CRC unit (42_checksum.md) -/

namespace Sys2Proof.Machine

/-- `x^i` with coefficient bit `i` of a 24-bit value (42_checksum.md R151). -/
noncomputable def crcPolynomial (v : BitVec 24) : Polynomial (ZMod 2) :=
  ∑ i ∈ Finset.range 24, if v.getLsbD i then Polynomial.X ^ i else 0

/-- `M(x)`: the stream bits of `S`, first bit highest (42_checksum.md R151). -/
noncomputable def streamPolynomial (S : Bytes) : Polynomial (ZMod 2) :=
  ∑ p ∈ Finset.range (8 * S.length), if sbit S p = 1 then Polynomial.X ^ (8 * S.length - 1 - p) else 0

/-- `G(x)` (42_checksum.md R151). -/
noncomputable def generatorPolynomial : Polynomial (ZMod 2) :=
  Polynomial.X ^ 24 + Polynomial.X ^ 23 + Polynomial.X ^ 18 + Polynomial.X ^ 17 + Polynomial.X ^ 14 +
    Polynomial.X ^ 11 + Polynomial.X ^ 10 + Polynomial.X ^ 7 + Polynomial.X ^ 6 + Polynomial.X ^ 5 +
    Polynomial.X ^ 4 + Polynomial.X ^ 3 + Polynomial.X + 1

end Sys2Proof.Machine

/-- `crc24q(S)` is the remainder of `M(x) * x^24` modulo `G(x)` over GF(2) (the polynomial form of 42_checksum.md
section 1, which the spec marks as derived). -/
def Obligations.CrcIsThePolynomialRemainder : Prop :=
  ∀ S : Bytes, crcPolynomial (crc24q S) = (streamPolynomial S * Polynomial.X ^ 24) %ₘ generatorPolynomial

/-- The byte-wise table form computes the same value (the informative form of 42_checksum.md section 1, which the spec
marks as derived). -/
def Obligations.CrcByteWiseFormAgrees : Prop :=
  ∀ S : Bytes, crc24qTab S = crc24q S

/-- `crc24q` is linear on byte sequences of equal length, and leading zero bytes do not change it (properties (a) to (c) of
42_checksum.md section 1, which the spec marks as derived). -/
def Obligations.CrcIsLinear : Prop :=
  crc24q [] = 0#24 ∧ (∀ S : Bytes, crc24q (0#8 :: S) = crc24q S) ∧
  ∀ S S' : Bytes, S.length = S'.length →
    crc24q (List.zipWith (· ^^^ ·) S S') = crc24q S ^^^ crc24q S'

/-- Appending the CRC, most significant byte first, gives residue 0, and only the CRC does: three bytes appended to `S` give
residue 0 exactly when they are `crc24q(S)` (property (d) of 42_checksum.md section 1, which the spec marks as derived). -/
def Obligations.CrcResidueIsZeroExactlyForTheCrc : Prop :=
  ∀ (S : Bytes) (b0 b1 b2 : Byte), crc24q (S ++ [b0, b1, b2]) = 0#24 ↔ b0 ++ b1 ++ b2 = crc24q S

/-- 42_checksum.md R155: CRC's word, its RANGE failure, its result and nothing else, CRC = 0 for N = 0, and its ILLEGAL
words. -/
def Obligations.CrcCommandResult : Prop :=
  (∀ a n, encode (.crc a n) = 0x08000000#32 ||| (BitVec.ofNat 32 n <<< 12) ||| BitVec.ofNat 32 a) ∧
  (∀ (s : State) (a n : Nat), a + n ≤ 4096 → ∃ t, exec (.crc a n) s = .next t ∧
    t = { s with crc := crc24q (s.bytesAt .ibuf a n), cause := .ok } ∧ SameMemory s t) ∧
  (∀ (s : State) (a : Nat), a ≤ 4095 → ∃ t, exec (.crc a 0) s = .next t ∧ t.crc = 0#24) ∧
  (∀ (s : State) (a n : Nat), a + n > 4096 → exec (.crc a n) s =
    .next { s with cause := .range, err := true, errcmd := encode (.crc a n) }) ∧
  (∀ w : Word, field w 31 26 = 0x02 → field w 25 25 ≠ 0 → ∃ r, decode w = .error r)

/-! ## The framer (43_framer.md) -/

/-- 43_framer.md R171, R172, R177: PUSH's word; for N at most 4096, the frames and the drain point are those of the scan of
`RBUF[0..RLEN) ++ IBUF[0..N)` from position 0 (a run of the relation `ScanRun`, a transcription of R173 to R175 on
indices), eviction keeps at most MAXRET bytes, RBUF, RLEN, OBUF, OBLEN, FDESC and FCOUNT are as R177 says, CAUSE is OK
and nothing else changes; for larger N, RANGE; and PUSH's ILLEGAL words. -/
def Obligations.PushResult : Prop :=
  (∀ n, encode (.push n) = 0x0C000000#32 ||| BitVec.ofNat 32 n) ∧
  (∀ (s : State) (n : Nat), s.Inv → n ≤ 4096 →
    (s.workBuffer n).length = s.rlen.toNat + n ∧ s.rlen.toNat + n ≤ 20480 ∧
    (∀ j, j < s.rlen.toNat → (s.workBuffer n).getD j 0#8 = s.byteAt .rbuf j) ∧
    (∀ j, j < n → (s.workBuffer n).getD (s.rlen.toNat + j) 0#8 = s.byteAt .ibuf j) ∧
    ∃ (frames : List Bytes) (drain d : Nat) (t : State),
      ScanRun 6 (s.workBuffer n) 0 0 frames drain ∧
      d = (if (s.workBuffer n).length - drain > s.maxret.toNat
        then (s.workBuffer n).length - s.maxret.toNat else drain) ∧
      exec (.push n) s = .next t ∧
      t = { s with
        rbuf := t.rbuf, rlen := t.rlen, obuf := t.obuf, oblen := t.oblen, fdesc := t.fdesc, fcount := t.fcount,
        cause := .ok } ∧
      t.rlen.toNat = (s.workBuffer n).length - d ∧
      (∀ j, j < t.rlen.toNat → t.byteAt .rbuf j = (s.workBuffer n).getD (d + j) 0#8) ∧
      t.oblen.toNat = frames.flatten.length ∧
      (∀ j, j < t.oblen.toNat → t.byteAt .obuf j = frames.flatten.getD j 0#8) ∧
      t.fcount.toNat = frames.length ∧
      (∀ k, k < frames.length →
        (t.desc k).toNat = (frames.getD k []).length * 2 ^ 16 + (frames.take k).flatten.length ∧
        (frames.take k).flatten.length < 2 ^ 15) ∧
      (∀ a, t.byteAt .ibuf a = s.byteAt .ibuf a) ∧ (∀ a, t.byteAt .pbuf a = s.byteAt .pbuf a)) ∧
  (∀ (s : State) (n : Nat), n > 4096 →
    exec (.push n) s = .next { s with cause := .range, err := true, errcmd := encode (.push n) }) ∧
  (∀ w : Word, field w 31 26 = 0x03 → field w 25 13 ≠ 0 → ∃ r, decode w = .error r)

/-- The scan function is a run of the relation of 43_framer.md R173 to R175 (sections 1 and 2 of the file), and that
relation has no other run: the two readings of the loop agree, for either value of SCAN_TAIL. -/
def Obligations.ScanIsTheOnlyScanRun : Prop :=
  ∀ (tail : Nat) (B : Bytes), 6 ≤ tail →
    ScanRun tail B 0 0 (scanAll tail B).frames (scanAll tail B).drain ∧
    ∀ frames drain, ScanRun tail B 0 0 frames drain →
      frames = (scanAll tail B).frames ∧ drain = (scanAll tail B).drain

/-- Every frame a push emits satisfies the frame invariant, and its own CRC-24Q is 0 (43_framer.md section 2, which the spec
marks as derived). -/
def Obligations.PushEmitsOnlyValidFrames : Prop :=
  ∀ (maxret : Nat) (retained input F : Bytes), F ∈ (pushBytes 6 maxret retained input).frames →
    ValidFrame F ∧ crc24q F = 0#24

/-- 43_framer.md R179: after a PUSH, FDESC lists frames in increasing order of their position in `B`; they are contiguous
subranges of `B` and do not overlap. -/
def Obligations.FramesAreInStreamOrder : Prop :=
  ∀ (s t : State) (n : Nat), s.Inv → n ≤ 4096 → exec (.push n) s = .next t →
    ∃ pos : Nat → Nat, ∀ k, k < t.fcount.toNat →
      t.frameBytes k = ((s.workBuffer n).drop (pos k)).take (descLen (t.desc k)) ∧
      pos k + descLen (t.desc k) ≤ (s.workBuffer n).length ∧
      ∀ k', k < k' → k' < t.fcount.toNat → pos k + descLen (t.desc k) ≤ pos k'

/-- A frame built by the host procedure of 42_checksum.md section 2 (preamble, length with reserved bits 0, payload, then the
CRC-24Q of these, most significant byte first) and pushed into an empty buffer is emitted as the one frame, with nothing
retained, whatever MAXRET is (the spec marks it as derived). -/
def Obligations.BuiltFrameIsAccepted : Prop :=
  ∀ (maxret : Nat) (payload : Bytes), payload.length ≤ 1023 →
    let header : Bytes := [0xD3#8, BitVec.ofNat 8 (payload.length / 256), BitVec.ofNat 8 (payload.length % 256)]
    let c := crc24q (header ++ payload)
    let F := header ++ payload ++ [c.extractLsb' 16 8, c.extractLsb' 8 8, c.extractLsb' 0 8]
    pushBytes 6 maxret [] F = { frames := [F], retained := [] }

/-- A push emits at most 3413 frames, of at most 20480 bytes in total, never more than the working buffer holds
(43_framer.md section 2, which the spec marks as derived). -/
def Obligations.PushOutputFits : Prop :=
  ∀ (maxret : Nat) (retained input : Bytes), retained.length ≤ 16384 → input.length ≤ 4096 →
    (pushBytes 6 maxret retained input).frames.flatten.length ≤ retained.length + input.length ∧
    (pushBytes 6 maxret retained input).frames.flatten.length ≤ 20480 ∧
    (pushBytes 6 maxret retained input).frames.length ≤ 3413

/-- 43_framer.md R182: after a PUSH, RLEN is at most MAXRET, and RBUF begins exactly at the end of the last emitted frame, or
at `n - MAXRET` when that lies further on, or at 0 when nothing was emitted and no eviction was needed. The frames and their
places are those of the scan (a run of `ScanRun`): `lastEnd` is where the last frame of that run ends in `B`. -/
def Obligations.PushRetention : Prop :=
  ∀ (s t : State) (n : Nat), s.Inv → n ≤ 4096 → exec (.push n) s = .next t →
    t.rlen.toNat ≤ t.maxret.toNat ∧
    ∃ (frames : List Bytes) (lastEnd : Nat),
      ScanRun 6 (s.workBuffer n) 0 0 frames lastEnd ∧
      t.fcount.toNat = frames.length ∧ (∀ k, k < frames.length → t.frameBytes k = frames.getD k []) ∧
      (frames = [] → lastEnd = 0) ∧
      (∀ F, frames.getLast? = some F → F.length ≤ lastEnd ∧ lastEnd ≤ (s.workBuffer n).length ∧
        ((s.workBuffer n).drop (lastEnd - F.length)).take F.length = F) ∧
      t.retained = (s.workBuffer n).drop (max lastEnd ((s.workBuffer n).length - s.maxret.toNat))

/-- 43_framer.md R180: a PUSH that passes its range check completes with CAUSE = OK whatever the bytes, and records
nothing. -/
def Obligations.PushReportsNoFramingError : Prop :=
  ∀ (s : State) (n : Nat), n ≤ 4096 → ∃ t, exec (.push n) s = .next t ∧ t.cause = .ok ∧ t.err = s.err ∧
    t.errcmd = s.errcmd ∧ t.xfail = s.xfail

/-- With MAXRET at least 1028, a stream pushed in any chunks from an empty buffer yields in total, and in the same order,
the frames of one push (43_framer.md section 2, which the spec marks as derived and not proved). -/
def Obligations.PushIsChunkingIndependent : Prop :=
  ∀ (maxret : Nat) (chunks : List Bytes), 1028 ≤ maxret → chunks.flatten.length ≤ 4096 →
    pushChunks 6 maxret [] chunks = (pushBytes 6 maxret [] chunks.flatten).frames

/-! ## The extractor (41_bitfield.md) -/

/-- 41_bitfield.md R130: XSETLEN's word, its effect and nothing else (memory unchanged), no RANGE error, and its ILLEGAL
words. -/
def Obligations.XsetlenResult : Prop :=
  (∀ n, encode (.xsetlen n) = 0x10000000#32 ||| BitVec.ofNat 32 n) ∧
  (∀ (s : State) (n : Nat), n ≤ 1023 → ∃ t, exec (.xsetlen n) s = .next t ∧ t.plen.toNat = n ∧
    t = { s with plen := t.plen, cur := 0#13, xfail := false, cause := .ok } ∧ SameMemory s t) ∧
  (∀ w : Word, field w 31 26 = 0x04 → field w 25 10 ≠ 0 → ∃ r, decode w = .error r)

/-- 41_bitfield.md R131: XLOAD's word; for K below FCOUNT, PBUF[0..L) becomes the payload of frame K in OBUF and every other
byte of every memory stays, PLEN = L, CUR = 0, XFAIL = 0, CAUSE = OK and nothing else changes; else RANGE; and its
ILLEGAL words. -/
def Obligations.XloadResult : Prop :=
  (∀ k, encode (.xload k) = 0x14000000#32 ||| BitVec.ofNat 32 k) ∧
  (∀ (s : State) (k : Nat), s.Inv → k < s.fcount.toNat → ∃ t, exec (.xload k) s = .next t ∧
    t = { s with pbuf := t.pbuf, plen := t.plen, cur := 0#13, xfail := false, cause := .ok } ∧
    t.plen.toNat + 6 = descLen (s.desc k) ∧
    (∀ j, j < t.plen.toNat → t.byteAt .pbuf j = s.byteAt .obuf (descOff (s.desc k) + 3 + j)) ∧
    (∀ j, t.plen.toNat ≤ j → t.byteAt .pbuf j = s.byteAt .pbuf j) ∧
    (∀ m a, m ≠ .pbuf → t.byteAt m a = s.byteAt m a) ∧ (∀ j, t.desc j = s.desc j)) ∧
  (∀ (s : State) (k : Nat), s.fcount.toNat ≤ k →
    exec (.xload k) s = .next { s with cause := .range, err := true, errcmd := encode (.xload k) }) ∧
  (∀ w : Word, field w 31 26 = 0x05 → field w 25 12 ≠ 0 → ∃ r, decode w = .error r)

/-- 41_bitfield.md R132, R133: EXTU's word; in bounds, bit `i` of RESULT is the field's stream bit `W - 1 - i` for `i < W`
and 0 above, LASTW = W, CUR moves on by W unless P = 1, CAUSE = OK and nothing else changes; past the end, BOUNDS; and its
ILLEGAL words. -/
def Obligations.ExtuResult : Prop :=
  (∀ w, encode (.extu w false) = 0x18000000#32 ||| BitVec.ofNat 32 (w - 1) ∧
    encode (.extu w true) = 0x18000000#32 ||| 0x40#32 ||| BitVec.ofNat 32 (w - 1)) ∧
  (∀ (s : State) (w : Nat) (peek : Bool), 1 ≤ w → w ≤ 64 → s.cur.toNat + w ≤ 8 * s.plen.toNat →
    ∃ t, exec (.extu w peek) s = .next t ∧
      t = { s with result := t.result, lastw := t.lastw, cur := t.cur, cause := .ok } ∧
      (∀ i, t.result.getLsbD i = (decide (i < w) && s.streamBit (s.cur.toNat + (w - 1 - i)))) ∧
      t.lastw.toNat = w ∧ t.cur.toNat = s.cur.toNat + (if peek then 0 else w) ∧ SameMemory s t) ∧
  (∀ (s : State) (w : Nat) (peek : Bool), s.cur.toNat + w > 8 * s.plen.toNat →
    exec (.extu w peek) s =
      .next { s with cause := .bounds, err := true, xfail := true, errcmd := encode (.extu w peek) }) ∧
  (∀ c : Word, field c 31 26 = 0x06 → field c 25 7 ≠ 0 → ∃ r, decode c = .error r)

/-- 41_bitfield.md R134: EXTS's word; in bounds, bit `i` of RESULT is the field's stream bit `W - 1 - i` for `i < W` and the
field's top bit above, LASTW = W, CUR moves on by W unless P = 1, CAUSE = OK and nothing else changes; past the end,
BOUNDS; and its ILLEGAL words. -/
def Obligations.ExtsResult : Prop :=
  (∀ w, encode (.exts w false) = 0x1C000000#32 ||| BitVec.ofNat 32 (w - 1) ∧
    encode (.exts w true) = 0x1C000000#32 ||| 0x40#32 ||| BitVec.ofNat 32 (w - 1)) ∧
  (∀ (s : State) (w : Nat) (peek : Bool), 1 ≤ w → w ≤ 64 → s.cur.toNat + w ≤ 8 * s.plen.toNat →
    ∃ t, exec (.exts w peek) s = .next t ∧
      t = { s with result := t.result, lastw := t.lastw, cur := t.cur, cause := .ok } ∧
      (∀ i, i < 64 → t.result.getLsbD i = s.streamBit (s.cur.toNat + (w - 1 - min i (w - 1)))) ∧
      t.lastw.toNat = w ∧ t.cur.toNat = s.cur.toNat + (if peek then 0 else w) ∧ SameMemory s t) ∧
  (∀ (s : State) (w : Nat) (peek : Bool), s.cur.toNat + w > 8 * s.plen.toNat →
    exec (.exts w peek) s =
      .next { s with cause := .bounds, err := true, xfail := true, errcmd := encode (.exts w peek) }) ∧
  (∀ c : Word, field c 31 26 = 0x07 → field c 25 7 ≠ 0 → ∃ r, decode c = .error r)

/-- 41_bitfield.md R137: ALIGN's word; it reads the bits up to the next byte boundary, never past the end, leaves CUR on that
boundary, LASTW = pad, CAUSE = OK and nothing else changed; and its ILLEGAL words. The premise is R44 (a). -/
def Obligations.AlignResult : Prop :=
  encode .align = 0x20000000#32 ∧
  (∀ s : State, s.cur.toNat ≤ 8 * s.plen.toNat → ∃ (t : State) (pad : Nat),
    exec .align s = .next t ∧
    pad = (8 * s.plen.toNat - s.cur.toNat) % 8 ∧ pad = (8 - s.cur.toNat % 8) % 8 ∧
    t = { s with result := t.result, lastw := t.lastw, cur := t.cur, cause := .ok } ∧
    (∀ i, t.result.getLsbD i = (decide (i < pad) && s.streamBit (s.cur.toNat + (pad - 1 - i)))) ∧
    t.lastw.toNat = pad ∧ t.cur.toNat = s.cur.toNat + pad ∧ t.cur.toNat % 8 = 0 ∧
    t.cur.toNat ≤ 8 * t.plen.toNat ∧ SameMemory s t) ∧
  (∀ w : Word, field w 31 26 = 0x08 → field w 25 0 ≠ 0 → ∃ r, decode w = .error r)

/-- 41_bitfield.md R135: a peek writes RESULT and LASTW as a consuming read does and leaves CUR unchanged, with the same
bounds check; DISPATCH at CUR = 0 returns `(PBUF[0] << 4) | (PBUF[1] >> 4)`. -/
def Obligations.PeekLeavesTheCursor : Prop :=
  (∀ (s t t' : State) (w : Nat), 1 ≤ w → w ≤ 64 →
    (exec (.extu w true) s = .next t ∧ exec (.extu w false) s = .next t' ∨
      exec (.exts w true) s = .next t ∧ exec (.exts w false) s = .next t') →
    t.result = t'.result ∧ t.lastw = t'.lastw ∧ t.cur = s.cur ∧ (t.cause = .bounds ↔ t'.cause = .bounds)) ∧
  (∀ s : State, s.cur = 0#13 → 2 ≤ s.plen.toNat → ∃ t, exec Instr.dispatch s = .next t ∧ t.cur = 0#13 ∧
    t.result = ((s.byteAt .pbuf 0).setWidth 64 <<< 4) ||| ((s.byteAt .pbuf 1).setWidth 64 >>> 4))

/-- 41_bitfield.md R140: no extraction command writes PBUF, PLEN or any framer state: the frame of EXTU, EXTS and ALIGN,
on success and on failure, with every byte of memory unchanged. -/
def Obligations.ExtractionLeavesPayloadAndFramer : Prop :=
  ∀ (s t : State) (i : Instr), (i.opcode = .extu ∨ i.opcode = .exts ∨ i.opcode = .align) → exec i s = .next t →
    t = { s with
      result := t.result, lastw := t.lastw, cur := t.cur, cause := t.cause, err := t.err, xfail := t.xfail,
      errcmd := t.errcmd } ∧
    (t.cause = .ok → t.err = s.err ∧ t.xfail = s.xfail ∧ t.errcmd = s.errcmd) ∧
    (t.cause ≠ .ok → t.result = s.result ∧ t.lastw = s.lastw ∧ t.cur = s.cur) ∧
    SameMemory s t

/-- The barrel shifter of nine bytes gives the field, whenever the field lies inside the sequence (41_bitfield.md section 1,
the shape the spec marks as derived). -/
def Obligations.BarrelShifterGivesTheField : Prop :=
  ∀ (B : Bytes) (c w : Nat), w ≤ 64 → c + w ≤ 8 * B.length → barrelRead B c w = sfield B c w

/-- A read's result depends only on the stream bits CUR to CUR + W - 1 (41_bitfield.md section 1): two states that agree on
them, on CUR and on PLEN read the same. -/
def Obligations.ReadDependsOnlyOnItsBits : Prop :=
  ∀ (s s' t t' : State) (w : Nat) (peek : Bool), 1 ≤ w → w ≤ 64 → s'.cur = s.cur → s'.plen = s.plen →
    s.cur.toNat + w ≤ 8 * s.plen.toNat →
    (∀ p, s.cur.toNat ≤ p → p < s.cur.toNat + w → s'.streamBit p = s.streamBit p) →
    (exec (.extu w peek) s = .next t ∧ exec (.extu w peek) s' = .next t' ∨
      exec (.exts w peek) s = .next t ∧ exec (.exts w peek) s' = .next t') →
    t'.result = t.result ∧ t'.lastw = t.lastw ∧ t'.cur = t.cur

/-- Cursor accounting (41_bitfield.md section 4, which the spec marks as derived). From CUR = 0, after commands other than
XSETLEN, XLOAD and RESET that all complete with CAUSE = 0, CUR is the sum of the widths of the consuming reads, signed or
unsigned, and the pad widths of the ALIGNs (peeks add nothing). A sequence of consuming reads and ALIGNs completes exactly
when that sum is at most 8 * PLEN; so a layout of fixed widths fits exactly when its widths add up to at most 8 * PLEN. -/
def Obligations.LayoutFitsExactlyWhenItsWidthsDo : Prop :=
  (∀ (is : List Instr) (s t : State),
    (∀ i ∈ is, i.WellFormed ∧ i.opcode ≠ .xsetlen ∧ i.opcode ≠ .xload ∧ i.opcode ≠ .reset) → s.cur = 0#13 →
    runAll is s = some t → t.cur.toNat = cursorAfter is 0 ∧ t.plen = s.plen ∧ cursorAfter is 0 ≤ 8 * s.plen.toNat) ∧
  (∀ (is : List Instr) (s : State),
    (∀ i ∈ is, i = .align ∨ ∃ w, 1 ≤ w ∧ w ≤ 64 ∧ (i = .extu w false ∨ i = .exts w false)) → s.cur = 0#13 →
    ((∃ t, runAll is s = some t) ↔ cursorAfter is 0 ≤ 8 * s.plen.toNat)) ∧
  ∀ (layout : List (Nat × Bool)) (s : State), (∀ f ∈ layout, 1 ≤ f.1 ∧ f.1 ≤ 64) → s.cur = 0#13 →
    ((∃ t, runAll (layout.map fieldRead) s = some t) ↔ (layout.map (·.1)).sum ≤ 8 * s.plen.toNat) ∧
    ∀ t, runAll (layout.map fieldRead) s = some t → t.cur.toNat = (layout.map (·.1)).sum

/-! ## The register port (20_memory.md, 10_state.md) -/

/-- 20_memory.md R66: an access at `addr` behaves exactly as the same access at `addr - (addr mod 4)`. -/
def Obligations.PortIgnoresTheLowAddressBits : Prop :=
  ∀ (addr : BitVec 19) (v : Word) (s : State),
    memRead addr s = memRead (addr - BitVec.ofNat 19 (addr.toNat % 4)) s ∧
    memWrite addr v s = memWrite (addr - BitVec.ofNat 19 (addr.toNat % 4)) v s

/-- 10_state.md R24: a write of `c` to CMD while idle makes `c` the pending command and BUSY 1 and changes nothing else; a
write to CMD while busy is dropped and sets HZ; CMD reads as 0 (while idle: 70_reset_and_hazards.md R241 frees the busy
read; log entry 12). -/
def Obligations.CmdWriteIssuesTheCommand : Prop :=
  (∀ (s : State) (c : Word) (ts : List Turn), s.turns = .write 0x00004#19 c :: ts → s.inReset = false →
    s.pending = none → ∃ t, step s = .next t ∧ t = { s with pending := some c, turns := ts } ∧ t.busy = true) ∧
  (∀ (s : State) (c : Word) (ts : List Turn), s.turns = .write 0x00004#19 c :: ts → s.inReset = false →
    s.busy = true → step s = .next { s with hz := true, turns := ts }) ∧
  (∀ s : State, s.pending = none → s.readWord 0x00004#19 = 0#32)

/-- 70_reset_and_hazards.md R240: a host write to any address while BUSY = 1 is dropped and sets HZ; the pending command is
still pending, on the state as it was when it was issued. -/
def Obligations.WriteWhileBusyIsDropped : Prop :=
  ∀ (s : State) (addr : BitVec 19) (v : Word) (ts : List Turn), s.turns = .write addr v :: ts → s.inReset = false →
    s.busy = true → ∃ t, step s = .next t ∧ t = { s with hz := true, turns := ts } ∧ t.pending = s.pending

/-- A host read while BUSY = 1 returns ID as 0x43523234 and STATUS bit 0 as 1, whatever the free values are; it changes
nothing of the block (70_reset_and_hazards.md section 3; the free values are those of log entry 3). -/
def Obligations.ReadWhileBusy : Prop :=
  ∀ (s : State) (addr : BitVec 19) (ts : List Turn), s.turns = .read addr :: ts → s.inReset = false → s.busy = true →
    ∃ t, step s = .next t ∧ t = { s with rdata := t.rdata, draws := t.draws, turns := ts } ∧
      (addr = 0x00000#19 → t.rdata = 0x43523234#32) ∧ (addr = 0x00008#19 → t.rdata.getLsbD 0 = true)

/-- Reads have no side effect on the block: whatever the address, a host read leaves every register and memory as it was
(20_memory.md section 2; the model's own fields of log entries 3 and 5 move on). -/
def Obligations.ReadsHaveNoSideEffect : Prop :=
  ∀ (s : State) (addr : BitVec 19) (ts : List Turn), s.turns = .read addr :: ts → s.inReset = false →
    ∃ t, step s = .next t ∧ t = { s with rdata := s.readWord addr, draws := s.draws + 1, turns := ts } ∧
      SameMemory s t

/-- The fields of the STATUS word: BUSY, CAUSE, ERR, XFAIL and HZ at their bits, every other bit 0, as the host reads it
while idle, with the cause codes OK 0, ILLEGAL 1, RANGE 2, BOUNDS 3 (10_state.md section 2, the STATUS field table;
60_exceptions.md section 1, the cause codes). -/
def Obligations.StatusWordFields : Prop :=
  (∀ s : State, s.pending = none →
    (s.readWord 0x00008#19).toNat =
      s.cause.code.toNat * 2 + s.err.toNat * 2 ^ 8 + s.xfail.toNat * 2 ^ 9 + s.hz.toNat * 2 ^ 10) ∧
  Cause.ok.code.toNat = 0 ∧ Cause.illegal.code.toNat = 1 ∧ Cause.range.code.toNat = 2 ∧ Cause.bounds.code.toNat = 3

/-- 10_state.md R26: a write to STATUS while idle clears ERR where bit 8 is 1 and HZ where bit 10 is 1, and does nothing
else; while busy it is dropped and sets HZ. -/
def Obligations.StatusWriteOneToClear : Prop :=
  (∀ (s : State) (v : Word) (ts : List Turn), s.turns = .write 0x00008#19 v :: ts → s.inReset = false →
    s.pending = none → ∃ t, step s = .next t ∧ t = { s with err := t.err, hz := t.hz, turns := ts } ∧
      t.err = (if v.getLsbD 8 then false else s.err) ∧ t.hz = (if v.getLsbD 10 then false else s.hz)) ∧
  (∀ (s : State) (v : Word) (ts : List Turn), s.turns = .write 0x00008#19 v :: ts → s.inReset = false →
    s.busy = true → step s = .next { s with hz := true, turns := ts })

/-- A write of `v` to MAXRET while idle sets it to `min(v, 16384)` and changes nothing else, RBUF and RLEN included; it reads
back as that number (10_state.md section 2, the MAXRET register). -/
def Obligations.MaxretWriteIsClamped : Prop :=
  ∀ (s : State) (v : Word) (ts : List Turn), s.turns = .write 0x00034#19 v :: ts → s.inReset = false →
    s.pending = none → ∃ t, step s = .next t ∧ t = { s with maxret := t.maxret, turns := ts } ∧
      t.maxret.toNat = min v.toNat 16384 ∧ (t.readWord 0x00034#19).toNat = min v.toNat 16384 ∧ SameMemory s t

/-- A write to a word of IBUF stores its four bytes in little-endian lanes and nothing else, and the word reads back
(20_memory.md section 1, byte lanes and the IBUF window). -/
def Obligations.IbufWordIsStoredInLanes : Prop :=
  ∀ (s : State) (k : Nat) (v : Word) (ts : List Turn), k < 1024 →
    s.turns = .write (BitVec.ofNat 19 (0x10000 + 4 * k)) v :: ts → s.inReset = false → s.pending = none →
    ∃ t, step s = .next t ∧ t = { s with ibuf := t.ibuf, turns := ts } ∧
      (∀ j, j < 4 → t.byteAt .ibuf (4 * k + j) = v.extractLsb' (8 * j) 8) ∧
      (∀ a, a < 4 * k ∨ 4 * k + 4 ≤ a → t.byteAt .ibuf a = s.byteAt .ibuf a) ∧
      t.readWord (BitVec.ofNat 19 (0x10000 + 4 * k)) = v

/-- 20_memory.md R64: the words 0x20000 to 0x203F8 map PBUF[0..1019]; the last word maps PBUF[1020..1022] in bits [23:0],
and its bits [31:24] read 0 and ignore writes. -/
def Obligations.PbufTopLaneHasNoStorage : Prop :=
  ∀ (s : State) (k : Nat) (v : Word) (ts : List Turn), k < 256 →
    s.turns = .write (BitVec.ofNat 19 (0x20000 + 4 * k)) v :: ts → s.inReset = false → s.pending = none →
    ∃ t, step s = .next t ∧ t = { s with pbuf := t.pbuf, turns := ts } ∧
      (∀ j, j < 4 → 4 * k + j < 1023 → t.byteAt .pbuf (4 * k + j) = v.extractLsb' (8 * j) 8) ∧
      (∀ a, a < 4 * k ∨ 4 * k + 4 ≤ a ∨ 1023 ≤ a → t.byteAt .pbuf a = s.byteAt .pbuf a) ∧
      t.readWord (BitVec.ofNat 19 (0x20000 + 4 * k)) = (if k = 255 then v &&& 0x00FFFFFF#32 else v)

/-- An idle write outside CMD, STATUS, MAXRET and the windows of IBUF and PBUF changes nothing: read-only registers, FDESC,
OBUF, RBUF and reserved addresses (20_memory.md section 1, 10_state.md section 2). -/
def Obligations.OtherWritesAreIgnored : Prop :=
  ∀ (s : State) (addr : BitVec 19) (v : Word) (ts : List Turn), s.turns = .write addr v :: ts → s.inReset = false →
    s.pending = none → addr.toNat / 4 ≠ 1 → addr.toNat / 4 ≠ 2 → addr.toNat / 4 ≠ 13 →
    ¬(0x10000 ≤ addr.toNat ∧ addr.toNat ≤ 0x10FFF) → ¬(0x20000 ≤ addr.toNat ∧ addr.toNat ≤ 0x203FF) →
    step s = .next { s with turns := ts }

/-- What the host reads while idle (20_memory.md section 1, 10_state.md section 2): the twelve registers ID, ERRCMD,
RESULT_LO, RESULT_HI, LASTW, CRC, CUR, PLEN, RLEN, FCOUNT, OBLEN and MAXRET at their offsets, zero-extended (STATUS is read
in `StatusWordFields`, CMD in `CmdWriteIssuesTheCommand`); reserved addresses 0; a word of FDESC below FCOUNT; every byte of the IBUF and PBUF windows, with 0 in the
lane above PBUF[1022]; every byte of the OBUF and RBUF windows that lies below OBLEN and RLEN, also in a word that reaches
past the length. -/
def Obligations.IdleReadsOfTheOutputWindows : Prop :=
  ∀ s : State, s.pending = none →
    (s.readWord 0x00000#19 = 0x43523234#32 ∧ s.readWord 0x0000C#19 = s.errcmd ∧
      s.readWord 0x00010#19 = s.result.extractLsb' 0 32 ∧ s.readWord 0x00014#19 = s.result.extractLsb' 32 32 ∧
      (s.readWord 0x00018#19).toNat = s.lastw.toNat ∧ (s.readWord 0x0001C#19).toNat = s.crc.toNat ∧
      (s.readWord 0x00020#19).toNat = s.cur.toNat ∧ (s.readWord 0x00024#19).toNat = s.plen.toNat ∧
      (s.readWord 0x00028#19).toNat = s.rlen.toNat ∧ (s.readWord 0x0002C#19).toNat = s.fcount.toNat ∧
      (s.readWord 0x00030#19).toNat = s.oblen.toNat ∧ (s.readWord 0x00034#19).toNat = s.maxret.toNat) ∧
    (∀ addr : BitVec 19, (0x38 ≤ addr.toNat ∧ addr.toNat < 0x4000 ∨ 0x8000 ≤ addr.toNat ∧ addr.toNat < 0x10000 ∨
      0x11000 ≤ addr.toNat ∧ addr.toNat < 0x20000 ∨ 0x20400 ≤ addr.toNat ∧ addr.toNat < 0x30000 ∨
      0x35000 ≤ addr.toNat ∧ addr.toNat < 0x40000 ∨ 0x45000 ≤ addr.toNat) → s.readWord addr = 0#32) ∧
    (∀ k, k < s.fcount.toNat → s.readWord (BitVec.ofNat 19 (0x4000 + 4 * k)) = s.desc k) ∧
    (∀ k j, k < 1024 → j < 4 →
      (s.readWord (BitVec.ofNat 19 (0x10000 + 4 * k))).extractLsb' (8 * j) 8 = s.byteAt .ibuf (4 * k + j)) ∧
    (∀ k j, k < 256 → j < 4 →
      (s.readWord (BitVec.ofNat 19 (0x20000 + 4 * k))).extractLsb' (8 * j) 8 =
        if 4 * k + j < 1023 then s.byteAt .pbuf (4 * k + j) else 0#8) ∧
    (∀ k j, k < 5120 → j < 4 → 4 * k + j < s.oblen.toNat →
      (s.readWord (BitVec.ofNat 19 (0x30000 + 4 * k))).extractLsb' (8 * j) 8 = s.byteAt .obuf (4 * k + j)) ∧
    (∀ k j, k < 5120 → j < 4 → 4 * k + j < s.rlen.toNat →
      (s.readWord (BitVec.ofNat 19 (0x40000 + 4 * k))).extractLsb' (8 * j) 8 = s.byteAt .rbuf (4 * k + j))

/-- A poll while busy lets the command complete, and the poll after it reads STATUS with BUSY = 0: `ISSUE` of any command
word ends, the block idle (30_encoding.md section 2; the model's choice is log entry 2). -/
def Obligations.IssueCompletesTheCommand : Prop :=
  ∀ (s : State) (w : Word) (ts : List Turn), s.turns = issueWord w ++ ts → s.inReset = false → s.pending = none →
    ∃ s1 s2 t, step s = .next s1 ∧ s1.pending = some w ∧ step s1 = .next s2 ∧ s2.pending = none ∧
      step s2 = .next t ∧ t.pending = none ∧ t.turns = ts ∧ t.rdata = s2.statusWord ∧ t.rdata.getLsbD 0 = false

/-! ## Reset (70_reset_and_hazards.md) -/

/-- 70_reset_and_hazards.md R231: the reset state of every register, also as the host reads the register page, no pending
command, and memories whose bytes are the free values. -/
def Obligations.ResetStateValues : Prop :=
  State.reset.readWord 0x00000#19 = 0x43523234#32 ∧ State.reset.statusWord = 0#32 ∧
  State.reset.errcmd = 0#32 ∧ State.reset.result = 0#64 ∧ State.reset.lastw = 0#7 ∧ State.reset.crc = 0#24 ∧
  State.reset.cur = 0#13 ∧ State.reset.plen = 0#10 ∧ State.reset.rlen = 0#15 ∧ State.reset.fcount = 0#12 ∧
  State.reset.oblen = 0#15 ∧ State.reset.maxret.toNat = 10000 ∧ State.reset.pending = none ∧
  State.reset.readWord 0x00034#19 = 10000#32 ∧
  (∀ k, 1 ≤ k → k < 13 → State.reset.readWord (BitVec.ofNat 19 (4 * k)) = 0#32) ∧
  (∀ m a, State.reset.byteAt m a = Config.unwritten 0 m a) ∧ ∀ k, State.reset.desc k = Config.unwrittenDesc 0 k

/-- 70_reset_and_hazards.md R230: when the reset input is asserted, a pending command is abandoned, whatever state the block
is in; while it stays asserted, through engine turns and further assertions, no command is pending and a port access has no
step; when it is deasserted, from any state in which it was asserted, the block is in the reset state with no command
pending: every field of the block has its reset value. The statement leaves the model's own fields open but for the moves
to come (the last read word, the counters of the free values; log entries 3, 4, 5, 9). -/
def Obligations.HardwareResetFromAnyState : Prop :=
  (∀ (s : State) (t : Turn) (ts : List Turn), s.inReset = true → s.turns = t :: ts →
    (t = .poll ∨ (∃ a, t = .read a) ∨ ∃ a v, t = .write a v) → step s = .fault .portAccessInReset) ∧
  (∀ (s : State) (ts : List Turn), s.turns = .assertReset :: ts →
    ∃ t, step s = .next t ∧ t.inReset = true ∧ t.pending = none ∧ t.turns = ts) ∧
  (∀ (s : State) (ts : List Turn), s.inReset = true → s.pending = none → s.turns = .engine :: ts →
    ∃ t, step s = .next t ∧ t.inReset = true ∧ t.pending = none ∧ t.turns = ts) ∧
  ∀ (s : State) (ts : List Turn), s.inReset = true → s.turns = .releaseReset :: ts →
    ∃ t, step s = .next t ∧ t = { State.reset with turns := ts, rdata := t.rdata, draws := t.draws, epoch := t.epoch }

/-- 70_reset_and_hazards.md R233: the soft reset leaves every register it writes at its value after hardware reset; MAXRET
and the memories are the two differences. (The pending command is still the RESET itself, until the end of its completion
step.) -/
def Obligations.SoftResetDiffersOnlyInMaxretAndMemory : Prop :=
  ∀ s : State, ∃ t, exec .reset s = .next t ∧
    t = { State.reset with
      maxret := s.maxret, ibuf := s.ibuf, pbuf := s.pbuf, rbuf := s.rbuf, obuf := s.obuf, fdesc := s.fdesc,
      pending := s.pending, inReset := s.inReset, turns := s.turns, rdata := s.rdata, draws := s.draws,
      epoch := s.epoch }

/-! ## The whole machine -/

/-- The invariant of 10_state.md section 4 holds after reset. -/
def Obligations.InvariantHoldsAtReset : Prop := State.reset.Inv

/-- The invariant of 10_state.md section 4 (cursor inside the payload, RLEN, FCOUNT and OBLEN within bounds, descriptors that
add up, valid frames only, canonical memories) is kept by every step: host accesses, commands, resets. -/
def Obligations.EveryStepKeepsTheInvariant : Prop :=
  ∀ s t : State, s.Inv → step s = .next t → t.Inv

/-- Only a host write to MAXRET can leave RLEN above MAXRET: every other step keeps RLEN at most MAXRET, and a completed
PUSH that is in range establishes it (10_state.md section 4 (g), which the spec marks as derived). -/
def Obligations.RetentionBoundIsKept : Prop :=
  (∀ s t : State, step s = .next t → s.rlen.toNat ≤ s.maxret.toNat →
    (∀ addr v ts, s.turns = .write addr v :: ts → addr.toNat / 4 ≠ 13) → t.rlen.toNat ≤ t.maxret.toNat) ∧
  (∀ (s t : State) (n : Nat), n ≤ 4096 → exec (.push n) s = .next t → t.rlen.toNat ≤ t.maxret.toNat)

/-- The sticky bits: in one step ERR goes from 1 to 0 only by a STATUS write with bit 8, HZ only by one with bit 10, XFAIL
only by XSETLEN, XLOAD or RESET, and otherwise only by RESET or a hardware reset; ERRCMD changes only by a failing
command, which leaves its word there, by RESET, or by a hardware reset (60_exceptions.md section 2). -/
def Obligations.StickyBitsAreClearedOnlyAsListed : Prop :=
  ∀ s t : State, step s = .next t →
    let hardware := s.inReset = true ∧ s.turns.head? = some .releaseReset
    let soft := ∃ w, s.pending = some w ∧ decode w = .ok .reset
    (s.err = true → t.err = false → hardware ∨ soft ∨
      ∃ addr v, s.turns.head? = some (.write addr v) ∧ addr.toNat / 4 = 2 ∧ v.getLsbD 8 = true ∧ s.busy = false) ∧
    (s.hz = true → t.hz = false → hardware ∨ soft ∨
      ∃ addr v, s.turns.head? = some (.write addr v) ∧ addr.toNat / 4 = 2 ∧ v.getLsbD 10 = true ∧ s.busy = false) ∧
    (s.xfail = true → t.xfail = false → hardware ∨ soft ∨
      ∃ w, s.pending = some w ∧ ((∃ n, decode w = .ok (.xsetlen n)) ∨ ∃ k, decode w = .ok (.xload k))) ∧
    (t.errcmd ≠ s.errcmd → hardware ∨ soft ∨ (s.pending = some t.errcmd ∧ t.cause ≠ .ok ∧ t.err = true))

/-- Which commands may write which state (10_state.md sections 2 and 3 with 40_control.md section of RESET; log entry 6):
IBUF, MAXRET and the outside world by no command; RBUF, OBUF, FDESC by PUSH; PBUF by XLOAD; and so on. -/
def Obligations.OnlyTheNamedCommandsWrite : Prop :=
  ∀ (i : Instr) (s t : State), exec i s = .next t →
    t.pending = s.pending ∧ t.inReset = s.inReset ∧ t.turns = s.turns ∧ t.rdata = s.rdata ∧ t.draws = s.draws ∧
    t.epoch = s.epoch ∧ t.maxret = s.maxret ∧ (∀ a, t.byteAt .ibuf a = s.byteAt .ibuf a) ∧
    (i.opcode ≠ .push → (∀ a, t.byteAt .rbuf a = s.byteAt .rbuf a) ∧ (∀ a, t.byteAt .obuf a = s.byteAt .obuf a) ∧
      ∀ k, t.desc k = s.desc k) ∧
    (i.opcode ≠ .push → i.opcode ≠ .reset → t.rlen = s.rlen ∧ t.fcount = s.fcount ∧ t.oblen = s.oblen) ∧
    (i.opcode ≠ .xload → ∀ a, t.byteAt .pbuf a = s.byteAt .pbuf a) ∧
    (i.opcode ≠ .xload → i.opcode ≠ .xsetlen → i.opcode ≠ .reset → t.plen = s.plen) ∧
    (i.opcode ≠ .xload → i.opcode ≠ .xsetlen → i.opcode ≠ .reset → i.opcode ≠ .extu → i.opcode ≠ .exts →
      i.opcode ≠ .align → t.cur = s.cur) ∧
    (i.opcode ≠ .reset → i.opcode ≠ .extu → i.opcode ≠ .exts → i.opcode ≠ .align →
      t.result = s.result ∧ t.lastw = s.lastw) ∧
    (i.opcode ≠ .reset → i.opcode ≠ .crc → t.crc = s.crc) ∧ (i.opcode ≠ .reset → t.hz = s.hz)
end

