-- ==== Sys2Proof/Laws/Decode.lean ====
section
/-! SUPPORT. The opcode map's masks as fields, and what the decoder can answer. -/

namespace Sys2Proof

/-- A field in numbers: divide and take the remainder. -/
theorem field_eq (c : Word) (hi lo : Nat) : field c hi lo = c.toNat / 2 ^ lo % 2 ^ (hi - lo + 1) := by
  simp [field, BitVec.extractLsb'_toNat, Nat.shiftRight_eq_div_pow]

/-- A mask of all bits from `k` up keeps exactly those bits. -/
theorem and_highMask (c : Word) (k : Nat) :
    (c &&& (BitVec.allOnes 32 <<< k)).toNat = c.toNat / 2 ^ k * 2 ^ k := by
  have h : c &&& (BitVec.allOnes 32 <<< k) = (c >>> k) <<< k := by
    ext i hi
    simp only [BitVec.getElem_and, BitVec.getElem_shiftLeft, BitVec.getElem_allOnes]
    by_cases hlt : i < k
    · simp [hlt]
    · simp [hlt, show k + (i - k) = i by omega, hi]
  have hle : c.toNat / 2 ^ k * 2 ^ k ≤ c.toNat := Nat.div_mul_le_self ..
  rw [h, BitVec.toNat_shiftLeft, BitVec.toNat_ushiftRight, Nat.shiftLeft_eq, Nat.shiftRight_eq_div_pow,
    Nat.mod_eq_of_lt (Nat.lt_of_le_of_lt hle c.isLt)]

/-- The number of operand bits of a format: the mask covers every bit from there up (30_encoding.md R81, R83). -/
def Opcode.operandBits : Opcode → Nat
  | .nop => 0
  | .reset => 0
  | .crc => 25
  | .push => 13
  | .xsetlen => 10
  | .xload => 12
  | .extu => 7
  | .exts => 7
  | .align => 0

/-- The masks of 30_encoding.md R83 are the high bits of each format. -/
theorem Opcode.maskWord_eq (o : Opcode) : o.maskWord = BitVec.allOnes 32 <<< o.operandBits := by
  cases o <;> rfl

/-- A word matches a row exactly when its bits from `operandBits` up are the row's. -/
theorem Opcode.matches_iff (o : Opcode) (c : Word) :
    c &&& o.maskWord = o.matchWord ↔ c.toNat / 2 ^ o.operandBits = o.matchWord.toNat / 2 ^ o.operandBits := by
  rw [o.maskWord_eq, ← BitVec.toNat_inj, and_highMask]
  have hm : o.matchWord.toNat / 2 ^ o.operandBits * 2 ^ o.operandBits = o.matchWord.toNat := by cases o <;> decide
  constructor
  · intro h; rw [← h, Nat.mul_div_cancel _ (by positivity)]
  · intro h; rw [h, hm]

/-- What the decoder can answer. -/
theorem decode_eq_ok_iff {c : Word} {i : Instr} :
    decode c = .ok i ↔
      ∃ o, Opcode.ofCode (field c 31 26) = some o ∧ c &&& o.maskWord = o.matchWord ∧ o.operands c = i := by
  unfold decode
  split <;> rename_i ho
  · simp [ho]
  · rename_i o
    by_cases hm : c &&& o.maskWord = o.matchWord <;> simp [ho, hm]

/-- Every word of 32 bits is answered, with a command or a named rejection. -/
theorem decode_total (c : Word) : (∃ i, decode c = .ok i) ∨ ∃ r, decode c = .error r := by
  cases h : decode c <;> simp

end Sys2Proof
end

