-- ==== Sys2Proof/Laws/Framer.lean ====
section
/-! SUPPORT. What the test of one position, the scan loop and a push can do, said once (43_framer.md R173 to R177). -/

namespace Sys2Proof.Machine

/-- The length field has 10 bits. -/
theorem lengthField_lt (rest : Bytes) : lengthField rest < 1024 := BitVec.isLt _

/-- The test of a position, outcome by outcome. -/
theorem examine_cases (n i : Nat) (rest : Bytes) :
    (examine n i rest = .noPreamble ∧ peekByte rest 0 ≠ 0xD3#8) ∨
    (examine n i rest = .incomplete ∧ peekByte rest 0 = 0xD3#8 ∧ i + 3 + lengthField rest + 3 > n) ∨
    (examine n i rest = .falseSync ∧ peekByte rest 0 = 0xD3#8 ∧ i + 3 + lengthField rest + 3 ≤ n ∧
      crc24q (rest.take (3 + lengthField rest)) ≠ checksumField rest (lengthField rest)) ∨
    (examine n i rest = .frame (6 + lengthField rest) ∧ peekByte rest 0 = 0xD3#8 ∧
      i + 3 + lengthField rest + 3 ≤ n ∧
      crc24q (rest.take (3 + lengthField rest)) = checksumField rest (lengthField rest)) := by
  unfold examine
  split <;> rename_i h1
  · exact .inl ⟨rfl, h1⟩
  · have h1' : peekByte rest 0 = 0xD3#8 := not_not.1 h1
    split <;> rename_i h2
    · exact .inr (.inl ⟨rfl, h1', h2⟩)
    · split <;> rename_i h3
      · exact .inr (.inr (.inl ⟨rfl, h1', by omega, h3⟩))
      · exact .inr (.inr (.inr ⟨rfl, h1', by omega, not_not.1 h3⟩))

/-- One round of the scan, outcome by outcome. -/
theorem scan_succ (tail n fuel i : Nat) (rest : Bytes) (drain : Nat) :
    scan tail n (fuel + 1) i rest drain =
      if i + tail ≤ n then
        match examine n i rest with
        | .noPreamble => scan tail n fuel (i + 1) (rest.drop 1) drain
        | .incomplete => { frames := [], drain := drain }
        | .falseSync => scan tail n fuel (i + 1) (rest.drop 1) drain
        | .frame len =>
          { frames := rest.take len :: (scan tail n fuel (i + len) (rest.drop len) (i + len)).frames
            drain := (scan tail n fuel (i + len) (rest.drop len) (i + len)).drain }
      else { frames := [], drain := drain } := rfl

/-- The drain point never leaves the working buffer. -/
theorem scan_drain_le {tail n : Nat} (fuel i : Nat) (rest : Bytes) {drain : Nat} (h : drain ≤ n) :
    (scan tail n fuel i rest drain).drain ≤ n := by
  induction fuel generalizing i rest drain with
  | zero => exact h
  | succ fuel ih =>
    rw [scan_succ]
    split
    · rcases examine_cases n i rest with ⟨e, -⟩ | ⟨e, -⟩ | ⟨e, -⟩ | ⟨e, -, hle, -⟩ <;> simp only [e]
      · exact ih _ _ h
      · exact h
      · exact ih _ _ h
      · exact ih _ _ (by omega)
    · exact h

/-- Eviction leaves at most MAXRET bytes (43_framer.md R176). -/
theorem sub_evict_le (n drain maxret : Nat) : n - evict n drain maxret ≤ maxret := by
  unfold evict
  split <;> omega

/-- Eviction stays inside the working buffer. -/
theorem evict_le {n drain : Nat} (maxret : Nat) (h : drain ≤ n) : evict n drain maxret ≤ n := by
  unfold evict
  split <;> omega

/-- A push retains at most MAXRET bytes. -/
theorem length_retained_le (tail maxret : Nat) (retained input : Bytes) :
    (pushBytes tail maxret retained input).retained.length ≤ maxret := by
  simp only [pushBytes, List.length_drop]
  exact sub_evict_le _ _ _

/-- A descriptor's fields are the offset and the length it was made from (10_state.md R41). -/
theorem descriptor_fields {off len : Nat} (ho : off < 2 ^ 15) (hl : len < 2 ^ 11) :
    descOff (descriptor off len) = off ∧ descLen (descriptor off len) = len ∧
      (descriptor off len).toNat = len * 2 ^ 16 + off := by
  have h : (descriptor off len).toNat = len * 2 ^ 16 + off := by
    simp only [descriptor, BitVec.toNat_or, BitVec.toNat_shiftLeft, BitVec.toNat_ofNat, Nat.shiftLeft_eq]
    rw [Nat.mod_eq_of_lt (show len < 2 ^ 32 by omega), Nat.mod_eq_of_lt (show len * 2 ^ 16 < 2 ^ 32 by omega),
      Nat.mod_eq_of_lt (show off < 2 ^ 32 by omega), Nat.mul_comm,
      ← Nat.two_pow_add_eq_or_of_lt (show off < 2 ^ 16 by omega)]
  refine ⟨?_, ?_, h⟩
  · simp only [descOff, BitVec.extractLsb'_toNat, h, Nat.shiftRight_eq_div_pow]; omega
  · simp only [descLen, BitVec.extractLsb'_toNat, h, Nat.shiftRight_eq_div_pow]; omega

/-- One descriptor per frame. -/
@[simp] theorem length_descriptors (off : Nat) (Fs : List Bytes) : (descriptors off Fs).length = Fs.length := by
  induction Fs generalizing off with
  | nil => rfl
  | cons F Fs ih => simp [descriptors, ih]

end Sys2Proof.Machine
end

