-- ==== Sys2Proof/Laws/Memory.lean ====
section
/-! SUPPORT. The laws of the memories: reading after writing, and that every memory operation keeps the canonical form
and the capacity. -/

namespace Sys2Proof.Machine.Memory

variable {α : Type}

@[simp] theorem read_nil (a : Nat) : read ([] : Memory α) a = none := rfl

/-- Reading what was just written. -/
@[simp] theorem read_write_same (m : Memory α) (a : Nat) (v : α) : read (write m a v) a = some v := by
  induction m with
  | nil => simp [write, read]
  | cons c m ih =>
    obtain ⟨k, w⟩ := c
    by_cases h1 : a < k
    · simp [write, read, h1]
    · by_cases h2 : a = k
      · simp [write, read, h2]
      · simp [write, read, h1, h2, ih]

/-- A write leaves every other index alone. -/
theorem read_write_other (m : Memory α) {a b : Nat} (v : α) (h : b ≠ a) : read (write m a v) b = read m b := by
  induction m with
  | nil => simp [write, read, h]
  | cons c m ih =>
    obtain ⟨k, w⟩ := c
    by_cases h1 : a < k
    · simp [write, read, h1, h]
    · by_cases h2 : a = k
      · subst h2; simp [write, read, h]
      · simp [write, read, h1, h2, ih]

/-- Below the written range a run of writes changes nothing. -/
theorem read_writeList_below (vs : List α) (m : Memory α) (a b : Nat) (h : b < a) :
    read (writeList m a vs) b = read m b := by
  induction vs generalizing m a with
  | nil => rfl
  | cons v vs ih =>
    rw [writeList, ih _ _ (by omega), read_write_other _ _ (by omega)]

/-- A run of writes, read anywhere. -/
theorem read_writeList (vs : List α) (m : Memory α) (a b : Nat) :
    read (writeList m a vs) b = if a ≤ b ∧ b < a + vs.length then vs[b - a]? else read m b := by
  induction vs generalizing m a with
  | nil => rw [if_neg (by simp only [List.length_nil]; omega)]; rfl
  | cons v vs ih =>
    by_cases hb : b = a
    · subst hb
      rw [writeList, read_writeList_below vs _ _ _ (by omega), read_write_same,
        if_pos (by simp only [List.length_cons]; omega)]
      simp
    · rw [writeList, ih, read_write_other _ _ hb]
      by_cases hin : a ≤ b ∧ b < a + (v :: vs).length
      · have hlen : b < a + 1 + vs.length := by have := hin.2; simp only [List.length_cons] at this; omega
        rw [if_pos ⟨by omega, hlen⟩, if_pos hin, show b - a = (b - (a + 1)) + 1 by omega, List.getElem?_cons_succ]
      · rw [if_neg hin, if_neg (by simp only [List.length_cons] at hin; omega)]

/-- A memory made from a list, read anywhere. -/
theorem read_ofList (vs : List α) (a b : Nat) :
    read (ofList a vs) b = if a ≤ b then vs[b - a]? else none := by
  induction vs generalizing a with
  | nil => simp [ofList]
  | cons v vs ih =>
    by_cases hb : b = a
    · subst hb; simp [ofList, read]
    · rw [ofList, read, if_neg hb, ih]
      by_cases hle : a ≤ b
      · rw [if_pos (by omega), if_pos hle, show b - a = (b - (a + 1)) + 1 by omega, List.getElem?_cons_succ]
      · rw [if_neg hle, if_neg (by omega)]

/-- Every index of a written memory is the written one or was there before. -/
theorem fst_mem_write {m : Memory α} {a : Nat} {v : α} {c : Nat × α} (h : c ∈ write m a v) : c.1 = a ∨ c ∈ m := by
  induction m with
  | nil => simp [write] at h; simp [h]
  | cons d m ih =>
    obtain ⟨k, w⟩ := d
    by_cases h1 : a < k
    · simp [write, h1] at h
      rcases h with rfl | rfl | h <;> simp_all
    · by_cases h2 : a = k
      · simp [write, h2] at h
        rcases h with rfl | h <;> simp_all
      · simp [write, h1, h2] at h
        rcases h with rfl | h
        · simp
        · rcases ih h with h | h <;> simp [h]

/-- A write keeps the canonical form. -/
theorem wf_write {m : Memory α} (h : wf m) (a : Nat) (v : α) : wf (write m a v) := by
  induction m with
  | nil => simp [write, wf]
  | cons d m ih =>
    obtain ⟨k, w⟩ := d
    have hk := List.pairwise_cons.1 h
    by_cases h1 : a < k
    · rw [write, if_pos h1]
      refine List.pairwise_cons.2 ⟨fun c hc => ?_, h⟩
      rcases List.mem_cons.1 hc with rfl | hc
      · exact h1
      · exact Nat.lt_trans h1 (hk.1 c hc)
    · by_cases h2 : a = k
      · subst h2
        rw [write, if_neg h1, if_pos rfl]
        exact List.pairwise_cons.2 hk
      · rw [write, if_neg h1, if_neg h2]
        refine List.pairwise_cons.2 ⟨fun c hc => ?_, ih hk.2⟩
        rcases fst_mem_write hc with h3 | h3
        · simp only [h3]; omega
        · exact hk.1 c h3

/-- A run of writes keeps the canonical form. -/
theorem wf_writeList {m : Memory α} (h : wf m) (a : Nat) (vs : List α) : wf (writeList m a vs) := by
  induction vs generalizing m a with
  | nil => exact h
  | cons v vs ih => exact ih (wf_write h a v) (a + 1)

/-- The indices of a memory made from a list. -/
theorem mem_ofList {vs : List α} {a : Nat} {c : Nat × α} (h : c ∈ ofList a vs) : a ≤ c.1 ∧ c.1 < a + vs.length := by
  induction vs generalizing a with
  | nil => simp [ofList] at h
  | cons v vs ih =>
    rcases List.mem_cons.1 h with rfl | h
    · simp
    · have := ih h
      simp only [List.length_cons]
      omega

/-- A memory made from a list is canonical. -/
theorem wf_ofList (a : Nat) (vs : List α) : wf (ofList a vs) := by
  induction vs generalizing a with
  | nil => simp [ofList, wf]
  | cons v vs ih =>
    refine List.pairwise_cons.2 ⟨fun c hc => ?_, ih (a + 1)⟩
    have := (mem_ofList hc).1
    simp only
    omega

/-- A write inside the capacity stays inside it. -/
theorem within_write {cap : Nat} {m : Memory α} (h : within cap m) {a : Nat} (ha : a < cap) (v : α) :
    within cap (write m a v) := by
  intro c hc
  rcases fst_mem_write hc with h1 | h1
  · omega
  · exact h c h1

/-- A run of writes inside the capacity stays inside it. -/
theorem within_writeList {cap : Nat} {m : Memory α} (h : within cap m) (a : Nat) (vs : List α)
    (ha : a + vs.length ≤ cap) : within cap (writeList m a vs) := by
  induction vs generalizing m a with
  | nil => exact h
  | cons v vs ih =>
    simp only [List.length_cons] at ha
    exact ih (within_write h (by omega) v) (a + 1) (by omega)

/-- A memory made from a list that fits stays inside the capacity. -/
theorem within_ofList {cap : Nat} (vs : List α) (h : vs.length ≤ cap) : within cap (ofList 0 vs) := by
  intro c hc
  have := mem_ofList hc
  omega

/-- In canonical form, what is listed is what is read. -/
theorem read_of_mem {m : Memory α} (h : wf m) {c : Nat × α} (hc : c ∈ m) : read m c.1 = some c.2 := by
  induction m with
  | nil => simp at hc
  | cons d m ih =>
    obtain ⟨k, w⟩ := d
    have hk := List.pairwise_cons.1 h
    rcases List.mem_cons.1 hc with rfl | hc
    · simp [read]
    · have := hk.1 c hc
      rw [read, if_neg (by omega), ih hk.2 hc]

/-- What is read is listed. -/
theorem mem_of_read {m : Memory α} {a : Nat} {v : α} (h : read m a = some v) : (a, v) ∈ m := by
  induction m with
  | nil => simp at h
  | cons d m ih =>
    obtain ⟨k, w⟩ := d
    by_cases hk : a = k
    · simp [read, hk] at h
      simp [hk, h]
    · simp [read, hk] at h
      exact List.mem_cons_of_mem _ (ih h)

/-- Canonical memories that read the same everywhere are equal data. -/
theorem ext_of_wf {m m' : Memory α} (h : wf m) (h' : wf m') (hr : ∀ a, read m a = read m' a) : m = m' := by
  refine List.Perm.eq_of_pairwise (le := fun x y => x.1 < y.1) (fun a b _ _ hab hba => absurd hab (by omega)) h h' ?_
  have nd {n : Memory α} (hn : wf n) : n.Nodup := List.Pairwise.imp (fun hlt heq => by simp [heq] at hlt) hn
  refine (List.perm_ext_iff_of_nodup (nd h) (nd h')).2 fun c => ⟨fun hc => ?_, fun hc => ?_⟩
  · exact mem_of_read (by rw [← hr]; exact read_of_mem h hc)
  · exact mem_of_read (by rw [hr]; exact read_of_mem h' hc)

end Sys2Proof.Machine.Memory
end

