-- ==== Sys2Proof/Laws/State.lean ====
section
/-! SUPPORT. One lemma per field per named update of State, each true by rfl, so that no proof unfolds a record update. -/

namespace Sys2Proof.Machine

/-! ## succeed -/

@[simp] theorem succeed_cause (s : State) : (succeed s).cause = .ok := rfl
@[simp] theorem succeed_err (s : State) : (succeed s).err = s.err := rfl
@[simp] theorem succeed_xfail (s : State) : (succeed s).xfail = s.xfail := rfl
@[simp] theorem succeed_hz (s : State) : (succeed s).hz = s.hz := rfl
@[simp] theorem succeed_errcmd (s : State) : (succeed s).errcmd = s.errcmd := rfl
@[simp] theorem succeed_result (s : State) : (succeed s).result = s.result := rfl
@[simp] theorem succeed_lastw (s : State) : (succeed s).lastw = s.lastw := rfl
@[simp] theorem succeed_crc (s : State) : (succeed s).crc = s.crc := rfl
@[simp] theorem succeed_cur (s : State) : (succeed s).cur = s.cur := rfl
@[simp] theorem succeed_plen (s : State) : (succeed s).plen = s.plen := rfl
@[simp] theorem succeed_rlen (s : State) : (succeed s).rlen = s.rlen := rfl
@[simp] theorem succeed_fcount (s : State) : (succeed s).fcount = s.fcount := rfl
@[simp] theorem succeed_oblen (s : State) : (succeed s).oblen = s.oblen := rfl
@[simp] theorem succeed_maxret (s : State) : (succeed s).maxret = s.maxret := rfl
@[simp] theorem succeed_ibuf (s : State) : (succeed s).ibuf = s.ibuf := rfl
@[simp] theorem succeed_pbuf (s : State) : (succeed s).pbuf = s.pbuf := rfl
@[simp] theorem succeed_rbuf (s : State) : (succeed s).rbuf = s.rbuf := rfl
@[simp] theorem succeed_obuf (s : State) : (succeed s).obuf = s.obuf := rfl
@[simp] theorem succeed_fdesc (s : State) : (succeed s).fdesc = s.fdesc := rfl
@[simp] theorem succeed_pending (s : State) : (succeed s).pending = s.pending := rfl
@[simp] theorem succeed_inReset (s : State) : (succeed s).inReset = s.inReset := rfl
@[simp] theorem succeed_turns (s : State) : (succeed s).turns = s.turns := rfl
@[simp] theorem succeed_rdata (s : State) : (succeed s).rdata = s.rdata := rfl
@[simp] theorem succeed_draws (s : State) : (succeed s).draws = s.draws := rfl
@[simp] theorem succeed_epoch (s : State) : (succeed s).epoch = s.epoch := rfl

/-! ## raise -/

@[simp] theorem raise_cause (c : Cause) (w : Word) (s : State) : (raise c w s).cause = c := rfl
@[simp] theorem raise_err (c : Cause) (w : Word) (s : State) : (raise c w s).err = true := rfl
@[simp] theorem raise_xfail (c : Cause) (w : Word) (s : State) : (raise c w s).xfail = (if c = .bounds then true else s.xfail) := rfl
@[simp] theorem raise_hz (c : Cause) (w : Word) (s : State) : (raise c w s).hz = s.hz := rfl
@[simp] theorem raise_errcmd (c : Cause) (w : Word) (s : State) : (raise c w s).errcmd = w := rfl
@[simp] theorem raise_result (c : Cause) (w : Word) (s : State) : (raise c w s).result = s.result := rfl
@[simp] theorem raise_lastw (c : Cause) (w : Word) (s : State) : (raise c w s).lastw = s.lastw := rfl
@[simp] theorem raise_crc (c : Cause) (w : Word) (s : State) : (raise c w s).crc = s.crc := rfl
@[simp] theorem raise_cur (c : Cause) (w : Word) (s : State) : (raise c w s).cur = s.cur := rfl
@[simp] theorem raise_plen (c : Cause) (w : Word) (s : State) : (raise c w s).plen = s.plen := rfl
@[simp] theorem raise_rlen (c : Cause) (w : Word) (s : State) : (raise c w s).rlen = s.rlen := rfl
@[simp] theorem raise_fcount (c : Cause) (w : Word) (s : State) : (raise c w s).fcount = s.fcount := rfl
@[simp] theorem raise_oblen (c : Cause) (w : Word) (s : State) : (raise c w s).oblen = s.oblen := rfl
@[simp] theorem raise_maxret (c : Cause) (w : Word) (s : State) : (raise c w s).maxret = s.maxret := rfl
@[simp] theorem raise_ibuf (c : Cause) (w : Word) (s : State) : (raise c w s).ibuf = s.ibuf := rfl
@[simp] theorem raise_pbuf (c : Cause) (w : Word) (s : State) : (raise c w s).pbuf = s.pbuf := rfl
@[simp] theorem raise_rbuf (c : Cause) (w : Word) (s : State) : (raise c w s).rbuf = s.rbuf := rfl
@[simp] theorem raise_obuf (c : Cause) (w : Word) (s : State) : (raise c w s).obuf = s.obuf := rfl
@[simp] theorem raise_fdesc (c : Cause) (w : Word) (s : State) : (raise c w s).fdesc = s.fdesc := rfl
@[simp] theorem raise_pending (c : Cause) (w : Word) (s : State) : (raise c w s).pending = s.pending := rfl
@[simp] theorem raise_inReset (c : Cause) (w : Word) (s : State) : (raise c w s).inReset = s.inReset := rfl
@[simp] theorem raise_turns (c : Cause) (w : Word) (s : State) : (raise c w s).turns = s.turns := rfl
@[simp] theorem raise_rdata (c : Cause) (w : Word) (s : State) : (raise c w s).rdata = s.rdata := rfl
@[simp] theorem raise_draws (c : Cause) (w : Word) (s : State) : (raise c w s).draws = s.draws := rfl
@[simp] theorem raise_epoch (c : Cause) (w : Word) (s : State) : (raise c w s).epoch = s.epoch := rfl

/-! ## finish -/

@[simp] theorem finish_cause (s : State) : (finish s).cause = s.cause := rfl
@[simp] theorem finish_err (s : State) : (finish s).err = s.err := rfl
@[simp] theorem finish_xfail (s : State) : (finish s).xfail = s.xfail := rfl
@[simp] theorem finish_hz (s : State) : (finish s).hz = s.hz := rfl
@[simp] theorem finish_errcmd (s : State) : (finish s).errcmd = s.errcmd := rfl
@[simp] theorem finish_result (s : State) : (finish s).result = s.result := rfl
@[simp] theorem finish_lastw (s : State) : (finish s).lastw = s.lastw := rfl
@[simp] theorem finish_crc (s : State) : (finish s).crc = s.crc := rfl
@[simp] theorem finish_cur (s : State) : (finish s).cur = s.cur := rfl
@[simp] theorem finish_plen (s : State) : (finish s).plen = s.plen := rfl
@[simp] theorem finish_rlen (s : State) : (finish s).rlen = s.rlen := rfl
@[simp] theorem finish_fcount (s : State) : (finish s).fcount = s.fcount := rfl
@[simp] theorem finish_oblen (s : State) : (finish s).oblen = s.oblen := rfl
@[simp] theorem finish_maxret (s : State) : (finish s).maxret = s.maxret := rfl
@[simp] theorem finish_ibuf (s : State) : (finish s).ibuf = s.ibuf := rfl
@[simp] theorem finish_pbuf (s : State) : (finish s).pbuf = s.pbuf := rfl
@[simp] theorem finish_rbuf (s : State) : (finish s).rbuf = s.rbuf := rfl
@[simp] theorem finish_obuf (s : State) : (finish s).obuf = s.obuf := rfl
@[simp] theorem finish_fdesc (s : State) : (finish s).fdesc = s.fdesc := rfl
@[simp] theorem finish_pending (s : State) : (finish s).pending = none := rfl
@[simp] theorem finish_inReset (s : State) : (finish s).inReset = s.inReset := rfl
@[simp] theorem finish_turns (s : State) : (finish s).turns = s.turns := rfl
@[simp] theorem finish_rdata (s : State) : (finish s).rdata = s.rdata := rfl
@[simp] theorem finish_draws (s : State) : (finish s).draws = s.draws := rfl
@[simp] theorem finish_epoch (s : State) : (finish s).epoch = s.epoch := rfl

/-! ## restart -/

@[simp] theorem restart_cause (n : Nat) (s : State) : (restart n s).cause = s.cause := rfl
@[simp] theorem restart_err (n : Nat) (s : State) : (restart n s).err = s.err := rfl
@[simp] theorem restart_xfail (n : Nat) (s : State) : (restart n s).xfail = false := rfl
@[simp] theorem restart_hz (n : Nat) (s : State) : (restart n s).hz = s.hz := rfl
@[simp] theorem restart_errcmd (n : Nat) (s : State) : (restart n s).errcmd = s.errcmd := rfl
@[simp] theorem restart_result (n : Nat) (s : State) : (restart n s).result = s.result := rfl
@[simp] theorem restart_lastw (n : Nat) (s : State) : (restart n s).lastw = s.lastw := rfl
@[simp] theorem restart_crc (n : Nat) (s : State) : (restart n s).crc = s.crc := rfl
@[simp] theorem restart_cur (n : Nat) (s : State) : (restart n s).cur = 0#13 := rfl
@[simp] theorem restart_plen (n : Nat) (s : State) : (restart n s).plen = BitVec.ofNat 10 n := rfl
@[simp] theorem restart_rlen (n : Nat) (s : State) : (restart n s).rlen = s.rlen := rfl
@[simp] theorem restart_fcount (n : Nat) (s : State) : (restart n s).fcount = s.fcount := rfl
@[simp] theorem restart_oblen (n : Nat) (s : State) : (restart n s).oblen = s.oblen := rfl
@[simp] theorem restart_maxret (n : Nat) (s : State) : (restart n s).maxret = s.maxret := rfl
@[simp] theorem restart_ibuf (n : Nat) (s : State) : (restart n s).ibuf = s.ibuf := rfl
@[simp] theorem restart_pbuf (n : Nat) (s : State) : (restart n s).pbuf = s.pbuf := rfl
@[simp] theorem restart_rbuf (n : Nat) (s : State) : (restart n s).rbuf = s.rbuf := rfl
@[simp] theorem restart_obuf (n : Nat) (s : State) : (restart n s).obuf = s.obuf := rfl
@[simp] theorem restart_fdesc (n : Nat) (s : State) : (restart n s).fdesc = s.fdesc := rfl
@[simp] theorem restart_pending (n : Nat) (s : State) : (restart n s).pending = s.pending := rfl
@[simp] theorem restart_inReset (n : Nat) (s : State) : (restart n s).inReset = s.inReset := rfl
@[simp] theorem restart_turns (n : Nat) (s : State) : (restart n s).turns = s.turns := rfl
@[simp] theorem restart_rdata (n : Nat) (s : State) : (restart n s).rdata = s.rdata := rfl
@[simp] theorem restart_draws (n : Nat) (s : State) : (restart n s).draws = s.draws := rfl
@[simp] theorem restart_epoch (n : Nat) (s : State) : (restart n s).epoch = s.epoch := rfl

/-! ## deliver -/

@[simp] theorem deliver_cause (v : BitVec 64) (w adv : Nat) (s : State) : (deliver v w adv s).cause = s.cause := rfl
@[simp] theorem deliver_err (v : BitVec 64) (w adv : Nat) (s : State) : (deliver v w adv s).err = s.err := rfl
@[simp] theorem deliver_xfail (v : BitVec 64) (w adv : Nat) (s : State) : (deliver v w adv s).xfail = s.xfail := rfl
@[simp] theorem deliver_hz (v : BitVec 64) (w adv : Nat) (s : State) : (deliver v w adv s).hz = s.hz := rfl
@[simp] theorem deliver_errcmd (v : BitVec 64) (w adv : Nat) (s : State) : (deliver v w adv s).errcmd = s.errcmd := rfl
@[simp] theorem deliver_result (v : BitVec 64) (w adv : Nat) (s : State) : (deliver v w adv s).result = v := rfl
@[simp] theorem deliver_lastw (v : BitVec 64) (w adv : Nat) (s : State) : (deliver v w adv s).lastw = BitVec.ofNat 7 w := rfl
@[simp] theorem deliver_crc (v : BitVec 64) (w adv : Nat) (s : State) : (deliver v w adv s).crc = s.crc := rfl
@[simp] theorem deliver_cur (v : BitVec 64) (w adv : Nat) (s : State) : (deliver v w adv s).cur = BitVec.ofNat 13 (s.cur.toNat + adv) := rfl
@[simp] theorem deliver_plen (v : BitVec 64) (w adv : Nat) (s : State) : (deliver v w adv s).plen = s.plen := rfl
@[simp] theorem deliver_rlen (v : BitVec 64) (w adv : Nat) (s : State) : (deliver v w adv s).rlen = s.rlen := rfl
@[simp] theorem deliver_fcount (v : BitVec 64) (w adv : Nat) (s : State) : (deliver v w adv s).fcount = s.fcount := rfl
@[simp] theorem deliver_oblen (v : BitVec 64) (w adv : Nat) (s : State) : (deliver v w adv s).oblen = s.oblen := rfl
@[simp] theorem deliver_maxret (v : BitVec 64) (w adv : Nat) (s : State) : (deliver v w adv s).maxret = s.maxret := rfl
@[simp] theorem deliver_ibuf (v : BitVec 64) (w adv : Nat) (s : State) : (deliver v w adv s).ibuf = s.ibuf := rfl
@[simp] theorem deliver_pbuf (v : BitVec 64) (w adv : Nat) (s : State) : (deliver v w adv s).pbuf = s.pbuf := rfl
@[simp] theorem deliver_rbuf (v : BitVec 64) (w adv : Nat) (s : State) : (deliver v w adv s).rbuf = s.rbuf := rfl
@[simp] theorem deliver_obuf (v : BitVec 64) (w adv : Nat) (s : State) : (deliver v w adv s).obuf = s.obuf := rfl
@[simp] theorem deliver_fdesc (v : BitVec 64) (w adv : Nat) (s : State) : (deliver v w adv s).fdesc = s.fdesc := rfl
@[simp] theorem deliver_pending (v : BitVec 64) (w adv : Nat) (s : State) : (deliver v w adv s).pending = s.pending := rfl
@[simp] theorem deliver_inReset (v : BitVec 64) (w adv : Nat) (s : State) : (deliver v w adv s).inReset = s.inReset := rfl
@[simp] theorem deliver_turns (v : BitVec 64) (w adv : Nat) (s : State) : (deliver v w adv s).turns = s.turns := rfl
@[simp] theorem deliver_rdata (v : BitVec 64) (w adv : Nat) (s : State) : (deliver v w adv s).rdata = s.rdata := rfl
@[simp] theorem deliver_draws (v : BitVec 64) (w adv : Nat) (s : State) : (deliver v w adv s).draws = s.draws := rfl
@[simp] theorem deliver_epoch (v : BitVec 64) (w adv : Nat) (s : State) : (deliver v w adv s).epoch = s.epoch := rfl

/-! ## storePush -/

@[simp] theorem storePush_cause (p : Push) (s : State) : (storePush p s).cause = s.cause := rfl
@[simp] theorem storePush_err (p : Push) (s : State) : (storePush p s).err = s.err := rfl
@[simp] theorem storePush_xfail (p : Push) (s : State) : (storePush p s).xfail = s.xfail := rfl
@[simp] theorem storePush_hz (p : Push) (s : State) : (storePush p s).hz = s.hz := rfl
@[simp] theorem storePush_errcmd (p : Push) (s : State) : (storePush p s).errcmd = s.errcmd := rfl
@[simp] theorem storePush_result (p : Push) (s : State) : (storePush p s).result = s.result := rfl
@[simp] theorem storePush_lastw (p : Push) (s : State) : (storePush p s).lastw = s.lastw := rfl
@[simp] theorem storePush_crc (p : Push) (s : State) : (storePush p s).crc = s.crc := rfl
@[simp] theorem storePush_cur (p : Push) (s : State) : (storePush p s).cur = s.cur := rfl
@[simp] theorem storePush_plen (p : Push) (s : State) : (storePush p s).plen = s.plen := rfl
@[simp] theorem storePush_rlen (p : Push) (s : State) : (storePush p s).rlen = BitVec.ofNat 15 p.retained.length := rfl
@[simp] theorem storePush_fcount (p : Push) (s : State) : (storePush p s).fcount = BitVec.ofNat 12 p.frames.length := rfl
@[simp] theorem storePush_oblen (p : Push) (s : State) : (storePush p s).oblen = BitVec.ofNat 15 p.frames.flatten.length := rfl
@[simp] theorem storePush_maxret (p : Push) (s : State) : (storePush p s).maxret = s.maxret := rfl
@[simp] theorem storePush_ibuf (p : Push) (s : State) : (storePush p s).ibuf = s.ibuf := rfl
@[simp] theorem storePush_pbuf (p : Push) (s : State) : (storePush p s).pbuf = s.pbuf := rfl
@[simp] theorem storePush_rbuf (p : Push) (s : State) : (storePush p s).rbuf = Memory.ofList 0 p.retained := rfl
@[simp] theorem storePush_obuf (p : Push) (s : State) : (storePush p s).obuf = Memory.ofList 0 p.frames.flatten := rfl
@[simp] theorem storePush_fdesc (p : Push) (s : State) : (storePush p s).fdesc = Memory.ofList 0 (descriptors 0 p.frames) := rfl
@[simp] theorem storePush_pending (p : Push) (s : State) : (storePush p s).pending = s.pending := rfl
@[simp] theorem storePush_inReset (p : Push) (s : State) : (storePush p s).inReset = s.inReset := rfl
@[simp] theorem storePush_turns (p : Push) (s : State) : (storePush p s).turns = s.turns := rfl
@[simp] theorem storePush_rdata (p : Push) (s : State) : (storePush p s).rdata = s.rdata := rfl
@[simp] theorem storePush_draws (p : Push) (s : State) : (storePush p s).draws = s.draws := rfl
@[simp] theorem storePush_epoch (p : Push) (s : State) : (storePush p s).epoch = s.epoch := rfl

/-! ## clearStatus -/

@[simp] theorem clearStatus_cause (v : Word) (s : State) : (clearStatus v s).cause = s.cause := rfl
@[simp] theorem clearStatus_err (v : Word) (s : State) : (clearStatus v s).err = (s.err && !v.getLsbD 8) := rfl
@[simp] theorem clearStatus_xfail (v : Word) (s : State) : (clearStatus v s).xfail = s.xfail := rfl
@[simp] theorem clearStatus_hz (v : Word) (s : State) : (clearStatus v s).hz = (s.hz && !v.getLsbD 10) := rfl
@[simp] theorem clearStatus_errcmd (v : Word) (s : State) : (clearStatus v s).errcmd = s.errcmd := rfl
@[simp] theorem clearStatus_result (v : Word) (s : State) : (clearStatus v s).result = s.result := rfl
@[simp] theorem clearStatus_lastw (v : Word) (s : State) : (clearStatus v s).lastw = s.lastw := rfl
@[simp] theorem clearStatus_crc (v : Word) (s : State) : (clearStatus v s).crc = s.crc := rfl
@[simp] theorem clearStatus_cur (v : Word) (s : State) : (clearStatus v s).cur = s.cur := rfl
@[simp] theorem clearStatus_plen (v : Word) (s : State) : (clearStatus v s).plen = s.plen := rfl
@[simp] theorem clearStatus_rlen (v : Word) (s : State) : (clearStatus v s).rlen = s.rlen := rfl
@[simp] theorem clearStatus_fcount (v : Word) (s : State) : (clearStatus v s).fcount = s.fcount := rfl
@[simp] theorem clearStatus_oblen (v : Word) (s : State) : (clearStatus v s).oblen = s.oblen := rfl
@[simp] theorem clearStatus_maxret (v : Word) (s : State) : (clearStatus v s).maxret = s.maxret := rfl
@[simp] theorem clearStatus_ibuf (v : Word) (s : State) : (clearStatus v s).ibuf = s.ibuf := rfl
@[simp] theorem clearStatus_pbuf (v : Word) (s : State) : (clearStatus v s).pbuf = s.pbuf := rfl
@[simp] theorem clearStatus_rbuf (v : Word) (s : State) : (clearStatus v s).rbuf = s.rbuf := rfl
@[simp] theorem clearStatus_obuf (v : Word) (s : State) : (clearStatus v s).obuf = s.obuf := rfl
@[simp] theorem clearStatus_fdesc (v : Word) (s : State) : (clearStatus v s).fdesc = s.fdesc := rfl
@[simp] theorem clearStatus_pending (v : Word) (s : State) : (clearStatus v s).pending = s.pending := rfl
@[simp] theorem clearStatus_inReset (v : Word) (s : State) : (clearStatus v s).inReset = s.inReset := rfl
@[simp] theorem clearStatus_turns (v : Word) (s : State) : (clearStatus v s).turns = s.turns := rfl
@[simp] theorem clearStatus_rdata (v : Word) (s : State) : (clearStatus v s).rdata = s.rdata := rfl
@[simp] theorem clearStatus_draws (v : Word) (s : State) : (clearStatus v s).draws = s.draws := rfl
@[simp] theorem clearStatus_epoch (v : Word) (s : State) : (clearStatus v s).epoch = s.epoch := rfl

/-! ## memRead -/

@[simp] theorem memRead_cause (a : BitVec 19) (s : State) : (memRead a s).cause = s.cause := rfl
@[simp] theorem memRead_err (a : BitVec 19) (s : State) : (memRead a s).err = s.err := rfl
@[simp] theorem memRead_xfail (a : BitVec 19) (s : State) : (memRead a s).xfail = s.xfail := rfl
@[simp] theorem memRead_hz (a : BitVec 19) (s : State) : (memRead a s).hz = s.hz := rfl
@[simp] theorem memRead_errcmd (a : BitVec 19) (s : State) : (memRead a s).errcmd = s.errcmd := rfl
@[simp] theorem memRead_result (a : BitVec 19) (s : State) : (memRead a s).result = s.result := rfl
@[simp] theorem memRead_lastw (a : BitVec 19) (s : State) : (memRead a s).lastw = s.lastw := rfl
@[simp] theorem memRead_crc (a : BitVec 19) (s : State) : (memRead a s).crc = s.crc := rfl
@[simp] theorem memRead_cur (a : BitVec 19) (s : State) : (memRead a s).cur = s.cur := rfl
@[simp] theorem memRead_plen (a : BitVec 19) (s : State) : (memRead a s).plen = s.plen := rfl
@[simp] theorem memRead_rlen (a : BitVec 19) (s : State) : (memRead a s).rlen = s.rlen := rfl
@[simp] theorem memRead_fcount (a : BitVec 19) (s : State) : (memRead a s).fcount = s.fcount := rfl
@[simp] theorem memRead_oblen (a : BitVec 19) (s : State) : (memRead a s).oblen = s.oblen := rfl
@[simp] theorem memRead_maxret (a : BitVec 19) (s : State) : (memRead a s).maxret = s.maxret := rfl
@[simp] theorem memRead_ibuf (a : BitVec 19) (s : State) : (memRead a s).ibuf = s.ibuf := rfl
@[simp] theorem memRead_pbuf (a : BitVec 19) (s : State) : (memRead a s).pbuf = s.pbuf := rfl
@[simp] theorem memRead_rbuf (a : BitVec 19) (s : State) : (memRead a s).rbuf = s.rbuf := rfl
@[simp] theorem memRead_obuf (a : BitVec 19) (s : State) : (memRead a s).obuf = s.obuf := rfl
@[simp] theorem memRead_fdesc (a : BitVec 19) (s : State) : (memRead a s).fdesc = s.fdesc := rfl
@[simp] theorem memRead_pending (a : BitVec 19) (s : State) : (memRead a s).pending = s.pending := rfl
@[simp] theorem memRead_inReset (a : BitVec 19) (s : State) : (memRead a s).inReset = s.inReset := rfl
@[simp] theorem memRead_turns (a : BitVec 19) (s : State) : (memRead a s).turns = s.turns := rfl
@[simp] theorem memRead_rdata (a : BitVec 19) (s : State) : (memRead a s).rdata = s.readWord a := rfl
@[simp] theorem memRead_draws (a : BitVec 19) (s : State) : (memRead a s).draws = s.draws + 1 := rfl
@[simp] theorem memRead_epoch (a : BitVec 19) (s : State) : (memRead a s).epoch = s.epoch := rfl

/-! ## assertReset -/

@[simp] theorem assertReset_cause (s : State) : (assertReset s).cause = s.cause := rfl
@[simp] theorem assertReset_err (s : State) : (assertReset s).err = s.err := rfl
@[simp] theorem assertReset_xfail (s : State) : (assertReset s).xfail = s.xfail := rfl
@[simp] theorem assertReset_hz (s : State) : (assertReset s).hz = s.hz := rfl
@[simp] theorem assertReset_errcmd (s : State) : (assertReset s).errcmd = s.errcmd := rfl
@[simp] theorem assertReset_result (s : State) : (assertReset s).result = s.result := rfl
@[simp] theorem assertReset_lastw (s : State) : (assertReset s).lastw = s.lastw := rfl
@[simp] theorem assertReset_crc (s : State) : (assertReset s).crc = s.crc := rfl
@[simp] theorem assertReset_cur (s : State) : (assertReset s).cur = s.cur := rfl
@[simp] theorem assertReset_plen (s : State) : (assertReset s).plen = s.plen := rfl
@[simp] theorem assertReset_rlen (s : State) : (assertReset s).rlen = s.rlen := rfl
@[simp] theorem assertReset_fcount (s : State) : (assertReset s).fcount = s.fcount := rfl
@[simp] theorem assertReset_oblen (s : State) : (assertReset s).oblen = s.oblen := rfl
@[simp] theorem assertReset_maxret (s : State) : (assertReset s).maxret = s.maxret := rfl
@[simp] theorem assertReset_ibuf (s : State) : (assertReset s).ibuf = s.ibuf := rfl
@[simp] theorem assertReset_pbuf (s : State) : (assertReset s).pbuf = s.pbuf := rfl
@[simp] theorem assertReset_rbuf (s : State) : (assertReset s).rbuf = s.rbuf := rfl
@[simp] theorem assertReset_obuf (s : State) : (assertReset s).obuf = s.obuf := rfl
@[simp] theorem assertReset_fdesc (s : State) : (assertReset s).fdesc = s.fdesc := rfl
@[simp] theorem assertReset_pending (s : State) : (assertReset s).pending = none := rfl
@[simp] theorem assertReset_inReset (s : State) : (assertReset s).inReset = true := rfl
@[simp] theorem assertReset_turns (s : State) : (assertReset s).turns = s.turns := rfl
@[simp] theorem assertReset_rdata (s : State) : (assertReset s).rdata = s.rdata := rfl
@[simp] theorem assertReset_draws (s : State) : (assertReset s).draws = s.draws := rfl
@[simp] theorem assertReset_epoch (s : State) : (assertReset s).epoch = s.epoch := rfl

/-! ## hardReset -/

@[simp] theorem hardReset_cause (s : State) : (hardReset s).cause = .ok := rfl
@[simp] theorem hardReset_err (s : State) : (hardReset s).err = false := rfl
@[simp] theorem hardReset_xfail (s : State) : (hardReset s).xfail = false := rfl
@[simp] theorem hardReset_hz (s : State) : (hardReset s).hz = false := rfl
@[simp] theorem hardReset_errcmd (s : State) : (hardReset s).errcmd = 0#32 := rfl
@[simp] theorem hardReset_result (s : State) : (hardReset s).result = 0#64 := rfl
@[simp] theorem hardReset_lastw (s : State) : (hardReset s).lastw = 0#7 := rfl
@[simp] theorem hardReset_crc (s : State) : (hardReset s).crc = 0#24 := rfl
@[simp] theorem hardReset_cur (s : State) : (hardReset s).cur = 0#13 := rfl
@[simp] theorem hardReset_plen (s : State) : (hardReset s).plen = 0#10 := rfl
@[simp] theorem hardReset_rlen (s : State) : (hardReset s).rlen = 0#15 := rfl
@[simp] theorem hardReset_fcount (s : State) : (hardReset s).fcount = 0#12 := rfl
@[simp] theorem hardReset_oblen (s : State) : (hardReset s).oblen = 0#15 := rfl
@[simp] theorem hardReset_maxret (s : State) : (hardReset s).maxret = 10000#15 := rfl
@[simp] theorem hardReset_ibuf (s : State) : (hardReset s).ibuf = [] := rfl
@[simp] theorem hardReset_pbuf (s : State) : (hardReset s).pbuf = [] := rfl
@[simp] theorem hardReset_rbuf (s : State) : (hardReset s).rbuf = [] := rfl
@[simp] theorem hardReset_obuf (s : State) : (hardReset s).obuf = [] := rfl
@[simp] theorem hardReset_fdesc (s : State) : (hardReset s).fdesc = [] := rfl
@[simp] theorem hardReset_pending (s : State) : (hardReset s).pending = none := rfl
@[simp] theorem hardReset_inReset (s : State) : (hardReset s).inReset = false := rfl
@[simp] theorem hardReset_turns (s : State) : (hardReset s).turns = s.turns := rfl
@[simp] theorem hardReset_rdata (s : State) : (hardReset s).rdata = s.rdata := rfl
@[simp] theorem hardReset_draws (s : State) : (hardReset s).draws = s.draws := rfl
@[simp] theorem hardReset_epoch (s : State) : (hardReset s).epoch = s.epoch + 1 := rfl

/-! ## Reading through an update that leaves the memory alone -/

/-- A byte depends only on its memory and the epoch. -/
theorem byteAt_congr {s t : State} {m : MemName} (hm : t.mem m = s.mem m) (he : t.epoch = s.epoch) (a : Nat) :
    t.byteAt m a = s.byteAt m a := by
  simp [State.byteAt, hm, he]

/-- A run of bytes depends only on its memory and the epoch. -/
theorem bytesAt_congr {s t : State} {m : MemName} (hm : t.mem m = s.mem m) (he : t.epoch = s.epoch) (a n : Nat) :
    t.bytesAt m a n = s.bytesAt m a n := by
  simp only [State.bytesAt]
  exact List.map_congr_left fun b _ => byteAt_congr hm he b

/-- A descriptor depends only on FDESC and the epoch. -/
theorem desc_congr {s t : State} (hf : t.fdesc = s.fdesc) (he : t.epoch = s.epoch) (k : Nat) :
    t.desc k = s.desc k := by
  simp [State.desc, hf, he]

@[simp] theorem mem_ibuf (s : State) : s.mem .ibuf = s.ibuf := rfl
@[simp] theorem mem_pbuf (s : State) : s.mem .pbuf = s.pbuf := rfl
@[simp] theorem mem_rbuf (s : State) : s.mem .rbuf = s.rbuf := rfl
@[simp] theorem mem_obuf (s : State) : s.mem .obuf = s.obuf := rfl

@[simp] theorem busy_none {s : State} (h : s.pending = none) : s.busy = false := by simp [State.busy, h]
@[simp] theorem busy_some {s : State} {w : Word} (h : s.pending = some w) : s.busy = true := by simp [State.busy, h]

end Sys2Proof.Machine
end

