-- ==== Sys2Proof/Laws/Operands.lean ====
section
/-! SUPPORT. The laws of stream fields: their size, their bits, the sum of 00_scope.md R12, and runs of bytes. -/

namespace Sys2Proof.Machine

/-- A stream bit is 0 or 1. -/
theorem sbit_lt (B : Bytes) (p : Nat) : sbit B p < 2 := Nat.mod_lt _ (by decide)

/-- A stream bit as a bit of its byte. -/
theorem sbit_eq (B : Bytes) (p : Nat) : sbit B p = ((B.getD (p / 8) 0#8).getLsbD (7 - p % 8)).toNat := by
  rw [sbit, BitVec.getLsbD, Nat.testBit_eq_decide_div_mod_eq, Nat.shiftRight_eq_div_pow]
  rcases Nat.mod_two_eq_zero_or_one ((B.getD (p / 8) 0#8).toNat / 2 ^ (7 - p % 8)) with h | h <;> rw [h] <;> rfl

/-- A `w`-bit field is below `2^w`. -/
theorem sfield_lt (B : Bytes) (p w : Nat) : sfield B p w < 2 ^ w := by
  induction w with
  | zero => simp [sfield]
  | succ w ih =>
    have := sbit_lt B (p + w)
    rw [sfield, Nat.pow_succ]
    omega

/-- The sum of 00_scope.md R12. -/
theorem sfield_eq_sum (B : Bytes) (p w : Nat) :
    sfield B p w = ∑ k ∈ Finset.range w, sbit B (p + k) <<< (w - 1 - k) := by
  induction w with
  | zero => simp [sfield]
  | succ w ih =>
    rw [sfield, ih, Finset.sum_range_succ, Finset.mul_sum]
    congr 1
    · refine Finset.sum_congr rfl fun k hk => ?_
      have := Finset.mem_range.1 hk
      rw [show w + 1 - 1 - k = (w - 1 - k) + 1 by omega, Nat.shiftLeft_succ]
    · simp

/-- The bits of a field: its bit `i` is the stream bit `w - 1 - i` places after its first. -/
theorem sfield_testBit (B : Bytes) (p w i : Nat) :
    (sfield B p w).testBit i = (decide (i < w) && decide (sbit B (p + (w - 1 - i)) = 1)) := by
  induction w generalizing i with
  | zero => simp [sfield]
  | succ w ih =>
    have hb := sbit_lt B (p + w)
    cases i with
    | zero =>
      rw [sfield, Nat.testBit_zero]
      simp only [Nat.zero_lt_succ, decide_true, Bool.true_and, Nat.add_sub_cancel, Nat.sub_zero, decide_eq_decide]
      omega
    | succ i =>
      rw [sfield, Nat.testBit_succ, show (2 * sfield B p w + sbit B (p + w)) / 2 = sfield B p w by omega, ih]
      by_cases hi : i < w
      · simp [hi, show w - (i + 1) = w - 1 - i by omega]
      · simp [hi]

/-- The length of a run of bytes. -/
@[simp] theorem length_bytesAt (s : State) (m : MemName) (a n : Nat) : (s.bytesAt m a n).length = n := by
  simp [State.bytesAt]

/-- A byte of a run. -/
theorem getD_bytesAt (s : State) (m : MemName) {a n j : Nat} (h : j < n) (d : Byte) :
    (s.bytesAt m a n).getD j d = s.byteAt m (a + j) := by
  simp [State.bytesAt, h]

/-- A lane of a word put together from lanes. -/
theorem lane_ofLanes (b0 b1 b2 b3 : Byte) :
    lane (ofLanes b0 b1 b2 b3) 0 = b0 ∧ lane (ofLanes b0 b1 b2 b3) 1 = b1 ∧
      lane (ofLanes b0 b1 b2 b3) 2 = b2 ∧ lane (ofLanes b0 b1 b2 b3) 3 = b3 := by
  refine ⟨?_, ?_, ?_, ?_⟩ <;>
  · apply BitVec.eq_of_getLsbD_eq
    intro i hi
    simp only [lane, ofLanes, BitVec.getLsbD_extractLsb', BitVec.getLsbD_append]
    simp +arith [hi]

/-- A word is put together from its lanes. -/
theorem ofLanes_lane (v : Word) : ofLanes (lane v 0) (lane v 1) (lane v 2) (lane v 3) = v := by
  apply BitVec.eq_of_getLsbD_eq
  intro i hi
  simp only [ofLanes, lane, BitVec.getLsbD_append, BitVec.getLsbD_extractLsb']
  by_cases h0 : i < 8
  · simp [h0]
  · by_cases h1 : i < 16
    · simp [h0, show i - 8 < 8 by omega, show 8 + (i - 8) = i by omega]
    · by_cases h2 : i < 24
      · simp [h0, show ¬ i - 8 < 8 by omega, show i - 8 - 8 < 8 by omega, show 16 + (i - 8 - 8) = i by omega]
      · simp [h0, show ¬ i - 8 < 8 by omega, show ¬ i - 8 - 8 < 8 by omega, show i - 8 - 8 - 8 < 8 by omega,
          show 24 + (i - 8 - 8 - 8) = i by omega]

end Sys2Proof.Machine
end

