-- ==== Sys2Proof/Laws/Ops.lean ====
section
/-! SUPPORT. What each shared operation can do, said once: a command's two endings, the completion step, the accesses of
the host, and the step itself. -/

namespace Sys2Proof.Machine

/-- A completed outcome is a completed next state. -/
theorem complete_eq_next {o : Host.Outcome State Fault Refusal} {t : State} :
    complete o = .next t ↔ ∃ u, o = .next u ∧ t = finish u := by
  cases o <;> simp [complete, eq_comm]

/-- What CRC can do. -/
theorem execCrc_cases {a n : Nat} {s t : State} (h : execCrc a n s = .next t) :
    (a + n ≤ 4096 ∧ t = succeed { s with crc := crc24q (s.bytesAt .ibuf a n) }) ∨
      (a + n > 4096 ∧ t = raise .range (encode (.crc a n)) s) := by
  unfold execCrc at h
  split at h <;> rename_i hc <;> cases h <;> simp only [Config.ibufCap] at hc
  · exact .inr ⟨hc, rfl⟩
  · exact .inl ⟨by omega, rfl⟩

/-- What PUSH can do. -/
theorem execPush_cases {n : Nat} {s t : State} (h : execPush n s = .next t) :
    (n ≤ 4096 ∧ t = succeed (storePush (pushBytes 6 s.maxret.toNat s.retained (s.bytesAt .ibuf 0 n)) s)) ∨
      (n > 4096 ∧ t = raise .range (encode (.push n)) s) := by
  unfold execPush at h
  split at h <;> rename_i hc <;> cases h <;> simp only [Config.ibufCap] at hc
  · exact .inr ⟨hc, rfl⟩
  · exact .inl ⟨by omega, rfl⟩

/-- What XLOAD can do. -/
theorem execXload_cases {k : Nat} {s t : State} (h : execXload k s = .next t) :
    (k < s.fcount.toNat ∧ t = succeed (restart (descLen (s.desc k) - 6) { s with
        pbuf := s.pbuf.writeList 0 (s.bytesAt .obuf (descOff (s.desc k) + 3) (descLen (s.desc k) - 6)) })) ∨
      (k ≥ s.fcount.toNat ∧ t = raise .range (encode (.xload k)) s) := by
  unfold execXload at h
  split at h <;> rename_i hc <;> cases h
  · exact .inr ⟨hc, rfl⟩
  · exact .inl ⟨by omega, rfl⟩

/-- What a field read can do. -/
theorem extract_cases {ext : Nat → Nat → BitVec 64} {w : Nat} {peek : Bool} {word : Word} {s t : State}
    (h : extract ext w peek word s = .next t) :
    (s.inBounds w ∧ t = succeed (deliver (ext w (s.readField w)) w (if peek then 0 else w) s)) ∨
      (¬s.inBounds w ∧ t = raise .bounds word s) := by
  unfold extract at h
  split at h <;> rename_i hc <;> cases h
  · exact .inl ⟨hc, rfl⟩
  · exact .inr ⟨hc, rfl⟩

/-- What the completion step of a word can do. -/
theorem runWord_cases {w : Word} {s t : State} (h : runWord w s = .next t) :
    (∃ r, decode w = .error r ∧ t = finish (raise .illegal w s)) ∨
      (∃ i u, decode w = .ok i ∧ exec i s = .next u ∧ t = finish u) := by
  unfold runWord at h
  split at h <;> rename_i hd
  · cases h; exact .inl ⟨_, hd, rfl⟩
  · obtain ⟨u, hu, rfl⟩ := complete_eq_next.1 h
    exact .inr ⟨_, u, hd, hu, rfl⟩

/-- What the engine's turn can do. -/
theorem engineTurn_cases {s t : State} (h : engineTurn s = .next t) :
    ((s.inReset = true ∨ s.pending = none) ∧ t = s) ∨
      (s.inReset = false ∧ ∃ w, s.pending = some w ∧ runWord w s = .next t) := by
  unfold engineTurn at h
  split at h <;> rename_i hr
  · cases h; exact .inl ⟨.inl hr, rfl⟩
  · split at h <;> rename_i hp
    · cases h; exact .inl ⟨.inr hp, rfl⟩
    · exact .inr ⟨by simpa using hr, _, hp, h⟩

/-- What a host access can do. -/
theorem hostTurn_cases {f : State → State} {s t : State} (h : hostTurn f s = .next t) :
    s.inReset = false ∧ t = f s := by
  unfold hostTurn at h
  split at h <;> rename_i hr <;> cases h
  exact ⟨by simpa using hr, rfl⟩

/-- The moves still to come after the engine has moved: the engine's own move is used up, a waiting poll stays. -/
def EngineMoves (s : State) (ts : List Turn) : Prop :=
  (s.turns = [] ∧ ts = []) ∨ s.turns = .engine :: ts ∨
    ∃ r, s.turns = .poll :: r ∧ ts = .poll :: r ∧ s.busy = true ∧ s.inReset = false

/-- What a step can do: the engine moves, the host reads, the host writes, or the reset input has an edge. -/
theorem step_cases {s t : State} (h : step s = .next t) :
    (∃ ts, EngineMoves s ts ∧ engineTurn { s with turns := ts } = .next t) ∨
    (∃ a ts, s.inReset = false ∧
      (s.turns = .read a :: ts ∨ (s.turns = .poll :: ts ∧ a = statusAddr ∧ s.busy = false)) ∧
      t = memRead a { s with turns := ts }) ∨
    (∃ a v ts, s.inReset = false ∧ s.turns = .write a v :: ts ∧ t = memWrite a v { s with turns := ts }) ∨
    (∃ ts, s.turns = .assertReset :: ts ∧ t = assertReset { s with turns := ts }) ∨
    (∃ ts, s.turns = .releaseReset :: ts ∧ t = releaseReset { s with turns := ts }) := by
  unfold step at h
  split at h <;> rename_i ht
  · exact .inl ⟨[], .inl ⟨ht, rfl⟩, by rw [← ht]; exact h⟩
  · rename_i m ts
    cases m with
    | engine => exact .inl ⟨ts, .inr (.inl ht), h⟩
    | read a =>
      obtain ⟨hr, rfl⟩ := hostTurn_cases h
      exact .inr (.inl ⟨a, ts, hr, .inl ht, rfl⟩)
    | write a v =>
      obtain ⟨hr, rfl⟩ := hostTurn_cases h
      exact .inr (.inr (.inl ⟨a, v, ts, hr, ht, rfl⟩))
    | poll =>
      simp only [takeTurn, pollTurn] at h
      split at h <;> rename_i hb
      · have hb' : s.busy = true ∧ s.inReset = false := by simpa [State.busy] using hb
        exact .inl ⟨.poll :: ts, .inr (.inr ⟨ts, ht, rfl, hb'.1, hb'.2⟩), h⟩
      · obtain ⟨hr, rfl⟩ := hostTurn_cases h
        refine .inr (.inl ⟨statusAddr, ts, hr, .inr ⟨ht, rfl, ?_⟩, rfl⟩)
        have hr' : s.inReset = false := hr
        simpa [hr', State.busy] using hb
    | assertReset =>
      cases h
      exact .inr (.inr (.inr (.inl ⟨ts, ht, rfl⟩)))
    | releaseReset =>
      cases h
      exact .inr (.inr (.inr (.inr ⟨ts, ht, rfl⟩)))

/-- What a write to a register can do while idle. -/
theorem writeReg_cases (r : Reg) (v : Word) (s : State) :
    (r = .cmd ∧ writeReg r v s = { s with pending := some v }) ∨
    (r = .status ∧ writeReg r v s = clearStatus v s) ∨
    (r = .maxret ∧ writeReg r v s = { s with maxret := BitVec.ofNat 15 (min v.toNat 16384) }) ∨
    (r ≠ .cmd ∧ r ≠ .status ∧ r ≠ .maxret ∧ writeReg r v s = s) := by
  cases r <;> simp [writeReg]

/-- What a host write can do: dropped while busy; else it reaches CMD, STATUS, MAXRET, IBUF or PBUF, or nothing. -/
theorem memWrite_cases (a : BitVec 19) (v : Word) (s : State) :
    (s.busy = true ∧ memWrite a v s = { s with hz := true }) ∨
    (s.busy = false ∧
      ((locate a = .reg .cmd ∧ memWrite a v s = { s with pending := some v }) ∨
       (locate a = .reg .status ∧ memWrite a v s = clearStatus v s) ∨
       (locate a = .reg .maxret ∧ memWrite a v s = { s with maxret := BitVec.ofNat 15 (min v.toNat 16384) }) ∨
       (∃ j, locate a = .window .ibuf j ∧ memWrite a v s = { s with ibuf := s.ibuf.writeList j (lanes v 4) }) ∨
       (∃ j, locate a = .window .pbuf j ∧
         memWrite a v s = { s with pbuf := s.pbuf.writeList j (lanes v (1023 - j)) }) ∨
       (memWrite a v s = s ∧ locate a ≠ .reg .cmd ∧ locate a ≠ .reg .status ∧ locate a ≠ .reg .maxret ∧
         (∀ j, locate a ≠ .window .ibuf j) ∧ ∀ j, locate a ≠ .window .pbuf j))) := by
  unfold memWrite
  split <;> rename_i hb
  · exact .inl ⟨hb, rfl⟩
  · refine .inr ⟨by simpa using hb, ?_⟩
    split <;> rename_i hl <;> simp only [hl, Loc.reg.injEq, reduceCtorEq, ne_eq, not_false_eq_true, and_true,
      false_and, false_or, exists_false, Loc.window.injEq, implies_true]
    · rcases writeReg_cases (by assumption) v s with ⟨rfl, e⟩ | ⟨rfl, e⟩ | ⟨rfl, e⟩ | ⟨h1, h2, h3, e⟩
      · exact .inl ⟨rfl, e⟩
      · exact .inr (.inl ⟨rfl, e⟩)
      · exact .inr (.inr (.inl ⟨rfl, e⟩))
      · exact .inr (.inr (.inr ⟨e, h1, h2, h3⟩))
    · rename_i m j
      cases m with
      | ibuf => exact .inl ⟨j, ⟨rfl, rfl⟩, rfl⟩
      | pbuf => exact .inr (.inl ⟨j, ⟨rfl, rfl⟩, rfl⟩)
      | obuf => simp [writeWindow]
      | rbuf => simp [writeWindow]

/-- Where the address map puts a word of IBUF. -/
theorem locate_ibuf {k : Nat} (hk : k < 1024) : locate (BitVec.ofNat 19 (0x10000 + 4 * k)) = .window .ibuf (4 * k) := by
  have h : (BitVec.ofNat 19 (0x10000 + 4 * k)).toNat = 0x10000 + 4 * k := by
    rw [BitVec.toNat_ofNat, Nat.mod_eq_of_lt (by omega)]
  simp only [locate, h, show (0x10000 + 4 * k) / 4 * 4 = 0x10000 + 4 * k by omega]
  repeat rw [if_neg (by omega)]
  rw [if_pos (by omega), show 0x10000 + 4 * k - 0x10000 = 4 * k by omega]

/-- Where the address map puts a word of PBUF. -/
theorem locate_pbuf {k : Nat} (hk : k < 256) : locate (BitVec.ofNat 19 (0x20000 + 4 * k)) = .window .pbuf (4 * k) := by
  have h : (BitVec.ofNat 19 (0x20000 + 4 * k)).toNat = 0x20000 + 4 * k := by
    rw [BitVec.toNat_ofNat, Nat.mod_eq_of_lt (by omega)]
  simp only [locate, h, show (0x20000 + 4 * k) / 4 * 4 = 0x20000 + 4 * k by omega]
  repeat rw [if_neg (by omega)]
  rw [if_pos (by omega), show 0x20000 + 4 * k - 0x20000 = 4 * k by omega]

/-- The window indices the address map gives: a write to a window stays inside its storage. -/
theorem locate_window {a : BitVec 19} {m : MemName} {j : Nat} (h : locate a = .window m j) :
    j % 4 = 0 ∧ (m = .ibuf → j + 4 ≤ 4096) ∧ (m = .pbuf → j + 4 ≤ 1024) := by
  have hr : ∀ n j m, regAt n ≠ .window m j := fun n j m => by unfold regAt; split <;> simp
  unfold locate at h
  simp only at h
  split_ifs at h <;> first | exact absurd h (hr _ _ _) | (cases h; simp; omega)

end Sys2Proof.Machine
end

