-- ==== Sys2Proof/Laws/PerInstr.lean ====
section
/-! SUPPORT. The family EncodedOpcode, one lemma per constructor: a well-formed command's word matches the row of its
opcode (30_encoding.md R83). Beside it, the encodings as numbers. -/

namespace Sys2Proof

/-- Fields that do not overlap: or is addition. -/
theorem or_eq_add {hi b : Nat} (k : Nat) (hb : b < 2 ^ k) : (2 ^ k * hi) ||| b = 2 ^ k * hi + b :=
  (Nat.two_pow_add_eq_or_of_lt hb hi).symm

/-- CRC's word as a number. -/
theorem encode_crc_toNat {a n : Nat} (ha : a ≤ 4095) (hn : n ≤ 8191) :
    (encode (.crc a n)).toNat = 0x08000000 + n * 4096 + a := by
  simp only [encode, BitVec.toNat_or, BitVec.toNat_shiftLeft, BitVec.toNat_ofNat, Nat.shiftLeft_eq]
  rw [Nat.mod_eq_of_lt (show n < 2 ^ 32 by omega), Nat.mod_eq_of_lt (show n * 2 ^ 12 < 2 ^ 32 by omega),
    Nat.mod_eq_of_lt (show a < 2 ^ 32 by omega), show 0x08000000 % 2 ^ 32 = 2 ^ 25 * 4 by decide,
    or_eq_add 25 (by omega), show 2 ^ 25 * 4 + n * 2 ^ 12 = 2 ^ 12 * (32768 + n) by omega, or_eq_add 12 (by omega)]
  omega

/-- PUSH's word as a number. -/
theorem encode_push_toNat {n : Nat} (hn : n ≤ 8191) : (encode (.push n)).toNat = 0x0C000000 + n := by
  simp only [encode, BitVec.toNat_or, BitVec.toNat_ofNat]
  rw [Nat.mod_eq_of_lt (show n < 2 ^ 32 by omega), show 0x0C000000 % 2 ^ 32 = 2 ^ 13 * 24576 by decide,
    or_eq_add 13 (by omega)]
  omega

/-- XSETLEN's word as a number. -/
theorem encode_xsetlen_toNat {n : Nat} (hn : n ≤ 1023) : (encode (.xsetlen n)).toNat = 0x10000000 + n := by
  simp only [encode, BitVec.toNat_or, BitVec.toNat_ofNat]
  rw [Nat.mod_eq_of_lt (show n < 2 ^ 32 by omega), show 0x10000000 % 2 ^ 32 = 2 ^ 10 * 262144 by decide,
    or_eq_add 10 (by omega)]
  omega

/-- XLOAD's word as a number. -/
theorem encode_xload_toNat {k : Nat} (hk : k ≤ 4095) : (encode (.xload k)).toNat = 0x14000000 + k := by
  simp only [encode, BitVec.toNat_or, BitVec.toNat_ofNat]
  rw [Nat.mod_eq_of_lt (show k < 2 ^ 32 by omega), show 0x14000000 % 2 ^ 32 = 2 ^ 12 * 81920 by decide,
    or_eq_add 12 (by omega)]
  omega

/-- The operands of format X as a number. -/
theorem extractOperands_toNat {w : Nat} {peek : Bool} (hw : w ≤ 64) :
    (extractOperands w peek).toNat = peek.toNat * 64 + (w - 1) := by
  have hp : peek.toNat < 2 := by cases peek <;> decide
  simp only [extractOperands, BitVec.toNat_or, BitVec.toNat_shiftLeft, BitVec.toNat_ofNat, Nat.shiftLeft_eq]
  rw [Nat.mod_eq_of_lt (show peek.toNat < 2 ^ 32 by omega), Nat.mod_eq_of_lt (show peek.toNat * 2 ^ 6 < 2 ^ 32 by omega),
    Nat.mod_eq_of_lt (show w - 1 < 2 ^ 32 by omega), Nat.mul_comm, or_eq_add 6 (by omega)]
  omega

/-- EXTU's word as a number. -/
theorem encode_extu_toNat {w : Nat} {peek : Bool} (hw : w ≤ 64) :
    (encode (.extu w peek)).toNat = 0x18000000 + peek.toNat * 64 + (w - 1) := by
  have hp : peek.toNat < 2 := by cases peek <;> decide
  simp only [encode, BitVec.toNat_or, BitVec.toNat_ofNat, extractOperands_toNat hw]
  rw [show 0x18000000 % 2 ^ 32 = 2 ^ 7 * 3145728 by decide, or_eq_add 7 (by omega)]
  omega

/-- EXTS's word as a number. -/
theorem encode_exts_toNat {w : Nat} {peek : Bool} (hw : w ≤ 64) :
    (encode (.exts w peek)).toNat = 0x1C000000 + peek.toNat * 64 + (w - 1) := by
  have hp : peek.toNat < 2 := by cases peek <;> decide
  simp only [encode, BitVec.toNat_or, BitVec.toNat_ofNat, extractOperands_toNat hw]
  rw [show 0x1C000000 % 2 ^ 32 = 2 ^ 7 * 3670016 by decide, or_eq_add 7 (by omega)]
  omega

namespace Laws.EncodedOpcode

/-- A well-formed command's word is in the row of its opcode (30_encoding.md R83). -/
def Statement (i : Instr) : Prop := i.WellFormed → encode i &&& i.opcode.maskWord = i.opcode.matchWord

theorem nop : Statement .nop := fun _ => by decide

theorem reset : Statement .reset := fun _ => by decide

theorem crc (a n : Nat) : Statement (.crc a n) := fun ⟨ha, hn⟩ => by
  rw [Opcode.matches_iff, encode_crc_toNat ha hn]
  simp only [Instr.opcode, Opcode.operandBits, Opcode.matchWord, BitVec.toNat_ofNat]
  omega

theorem push (n : Nat) : Statement (.push n) := fun hn => by
  simp only [Instr.WellFormed] at hn
  rw [Opcode.matches_iff, encode_push_toNat hn]
  simp only [Instr.opcode, Opcode.operandBits, Opcode.matchWord, BitVec.toNat_ofNat]
  omega

theorem xsetlen (n : Nat) : Statement (.xsetlen n) := fun hn => by
  simp only [Instr.WellFormed] at hn
  rw [Opcode.matches_iff, encode_xsetlen_toNat hn]
  simp only [Instr.opcode, Opcode.operandBits, Opcode.matchWord, BitVec.toNat_ofNat]
  omega

theorem xload (k : Nat) : Statement (.xload k) := fun hk => by
  simp only [Instr.WellFormed] at hk
  rw [Opcode.matches_iff, encode_xload_toNat hk]
  simp only [Instr.opcode, Opcode.operandBits, Opcode.matchWord, BitVec.toNat_ofNat]
  omega

theorem extu (w : Nat) (peek : Bool) : Statement (.extu w peek) := fun ⟨_, hw⟩ => by
  have hp : peek.toNat < 2 := by cases peek <;> decide
  rw [Opcode.matches_iff, encode_extu_toNat hw]
  simp only [Instr.opcode, Opcode.operandBits, Opcode.matchWord, BitVec.toNat_ofNat]
  omega

theorem exts (w : Nat) (peek : Bool) : Statement (.exts w peek) := fun ⟨_, hw⟩ => by
  have hp : peek.toNat < 2 := by cases peek <;> decide
  rw [Opcode.matches_iff, encode_exts_toNat hw]
  simp only [Instr.opcode, Opcode.operandBits, Opcode.matchWord, BitVec.toNat_ofNat]
  omega

theorem align : Statement .align := fun _ => by decide

end Laws.EncodedOpcode

end Sys2Proof
end

