-- ==== Sys2Proof/Laws/Safety.lean ====
section
/-! SUPPORT. The laws of the terms the claims are stated in: the moves a completion step leaves, what a completion step is,
and sequences of commands. -/

namespace Sys2Proof.Machine

/-- With no move to come, none is left. -/
theorem movesLeft_nil {s : State} (h : s.turns = []) : s.movesLeft = [] := by simp [State.movesLeft, h]

/-- The engine's turn is spent. -/
theorem movesLeft_engine {s : State} {ts : List Turn} (h : s.turns = .engine :: ts) : s.movesLeft = ts := by
  simp [State.movesLeft, h]

/-- A poll stays. -/
theorem movesLeft_poll {s : State} (h : s.turns.head? = some .poll) : s.movesLeft = s.turns := by
  simp [State.movesLeft, h]

/-- A completion step runs the pending word, whichever move leads to it (10_state.md R42). -/
theorem step_of_completing {s : State} {w : Word} (h : s.Completing w) :
    step s = runWord w { s with turns := s.movesLeft } := by
  obtain ⟨hp, hr, ht | ht | ht⟩ := h
  · rw [movesLeft_nil ht]
    simp only [step, ht, engineTurn, hr, hp, Bool.false_eq_true, if_false]
    rw [← ht, ← hr, ← hp]
  · obtain ⟨ts, ht'⟩ : ∃ ts, s.turns = .engine :: ts := by
      cases hs : s.turns with
      | nil => simp [hs] at ht
      | cons t ts => exact ⟨ts, by simpa [hs] using ht⟩
    simp [movesLeft_engine ht', step, ht', takeTurn, engineTurn, hr, hp]
  · obtain ⟨ts, ht'⟩ : ∃ ts, s.turns = .poll :: ts := by
      cases hs : s.turns with
      | nil => simp [hs] at ht
      | cons t ts => exact ⟨ts, by simpa [hs] using ht⟩
    simp [movesLeft_poll ht, step, ht', takeTurn, pollTurn, State.busy, engineTurn, hr, hp]

@[simp] theorem runAll_nil (s : State) : runAll [] s = some s := rfl

/-- The first command of a sequence completes with CAUSE = 0, or the sequence does not complete. -/
theorem runAll_cons_of_next {i : Instr} {is : List Instr} {s t : State} (h : exec i s = .next t) :
    runAll (i :: is) s = if t.cause = .ok then runAll is t else none := by rw [runAll, h]

@[simp] theorem cursorAfter_nil (c : Nat) : cursorAfter [] c = c := rfl

@[simp] theorem cursorAfter_cons (i : Instr) (is : List Instr) (c : Nat) :
    cursorAfter (i :: is) c = cursorAfter is (c + advance c i) := rfl

/-- A sequence of commands never moves the cursor back. -/
theorem le_cursorAfter (is : List Instr) (c : Nat) : c ≤ cursorAfter is c := by
  induction is generalizing c with
  | nil => exact Nat.le_refl c
  | cons i is ih => exact Nat.le_trans (Nat.le_add_right c _) (ih _)

end Sys2Proof.Machine
end

