-- ==== Sys2Proof/Tests/Slice0.lean ====
section
/-! SUPPORT. Tests on fixed values, each from the tables, vectors or examples of spec/ (95_test_vectors.md V-…), and one
witness per statement that has hypotheses: concrete states and operands that meet all of them together. -/

namespace Sys2Proof.Tests

open Sys2Proof Sys2Proof.Machine

/-! ## Helpers -/

/-- The next state of an outcome, none where it stopped. -/
def next? : Host.Outcome State Fault Refusal → Option State
  | .next s => some s
  | .fault _ => none
  | .refused _ => none

/-- A field of the next state of an outcome, none where it stopped. -/
def got {α : Type} (o : Host.Outcome State Fault Refusal) (f : State → α) : Option α := (next? o).map f

/-- F1 of 95_test_vectors.md. -/
def F1 : Bytes := [0xD3#8, 0x00#8, 0x04#8, 0x01#8, 0x02#8, 0x03#8, 0x04#8, 0xF9#8, 0x03#8, 0x25#8]

/-- F1x of 95_test_vectors.md: F1 with its last CRC byte changed. -/
def F1x : Bytes := [0xD3#8, 0x00#8, 0x04#8, 0x01#8, 0x02#8, 0x03#8, 0x04#8, 0xF9#8, 0x03#8, 0x24#8]

/-- F0 of 95_test_vectors.md. -/
def F0 : Bytes := [0xD3#8, 0x00#8, 0x00#8, 0x47#8, 0xEA#8, 0x4B#8]

/-- FR of 95_test_vectors.md: the six reserved bits set. -/
def FR : Bytes := [0xD3#8, 0xFC#8, 0x01#8, 0xAA#8, 0xF3#8, 0x48#8, 0x5C#8]

/-- M5 of 95_test_vectors.md. -/
def M5 : Bytes :=
  [0xD3#8, 0x00#8, 0x13#8, 0x3E#8, 0xD7#8, 0xD3#8, 0x02#8, 0x02#8, 0x98#8, 0x0E#8, 0xDE#8, 0xEF#8, 0x34#8, 0xB4#8,
    0xBD#8, 0x62#8, 0xAC#8, 0x09#8, 0x41#8, 0x98#8, 0x6F#8, 0x33#8, 0x36#8, 0x0B#8, 0x98#8]

/-- PAT of 95_test_vectors.md. -/
def PAT : Bytes := [0xF0#8, 0x0F#8, 0xA5#8, 0x5A#8, 0x12#8, 0x34#8, 0x56#8, 0x78#8, 0x9A#8, 0xBC#8]

/-- The reset state with bytes at the start of IBUF. -/
def withInput (b : Bytes) : State := { State.reset with ibuf := Memory.ofList 0 b }

/-- The reset state with PAT loaded and the cursor at `c` (95_test_vectors.md section 2.3). -/
def patAt (c : Nat) : State :=
  { State.reset with pbuf := Memory.ofList 0 PAT, plen := 10#10, cur := BitVec.ofNat 13 c }

/-- The reset state after a push of F1. -/
def afterF1 : State := storePush (pushBytes 6 10000 [] F1) State.reset

/-- The reset state with a command word pending. -/
def pendingWord (w : Word) : State := { State.reset with pending := some w }

/-- The reset state with one host write to come. -/
def writing (addr : BitVec 19) (v : Word) : State := { State.reset with turns := [.write addr v] }

/-- `writing`, with a NOP pending. -/
def writingBusy (addr : BitVec 19) (v : Word) : State := { writing addr v with pending := some 0#32 }

/-! ## Well-formedness: each check refuses an ill-formed term (30_encoding.md R87) -/

theorem test_wf_crc_start : ¬(Instr.crc 4096 0).WellFormed ∧ (Instr.crc 4095 0).WellFormed := by decide
theorem test_wf_crc_count : ¬(Instr.crc 0 8192).WellFormed ∧ (Instr.crc 0 8191).WellFormed := by decide
theorem test_wf_push : ¬(Instr.push 8192).WellFormed ∧ (Instr.push 8191).WellFormed := by decide
theorem test_wf_xsetlen : ¬(Instr.xsetlen 1024).WellFormed ∧ (Instr.xsetlen 1023).WellFormed := by decide
theorem test_wf_xload : ¬(Instr.xload 4096).WellFormed ∧ (Instr.xload 4095).WellFormed := by decide
theorem test_wf_extu : ¬(Instr.extu 0 false).WellFormed ∧ ¬(Instr.extu 65 true).WellFormed := by decide
theorem test_wf_exts : ¬(Instr.exts 0 true).WellFormed ∧ ¬(Instr.exts 65 false).WellFormed := by decide

/-! ## Decoding: words written out bit by bit from 30_encoding.md R81 and R83 -/

theorem test_decode_nop : decode 0b000000_00000000000000000000000000#32 = .ok .nop := by decide
theorem test_decode_reset : decode 0b000001_00000000000000000000000000#32 = .ok .reset := by decide
/-- OP 0x02, bit 25 zero, N = 4098 in [24:12], A = 2049 in [11:0]. -/
theorem test_decode_crc : decode 0b000010_0_1000000000010_100000000001#32 = .ok (.crc 2049 4098) := by decide
/-- OP 0x03, N = 4097 in [12:0]. -/
theorem test_decode_push : decode 0b000011_0000000000000_1000000000001#32 = .ok (.push 4097) := by decide
/-- OP 0x04, N = 515 in [9:0]. -/
theorem test_decode_xsetlen : decode 0b000100_0000000000000000_1000000011#32 = .ok (.xsetlen 515) := by decide
/-- OP 0x05, K = 2051 in [11:0]. -/
theorem test_decode_xload : decode 0b000101_00000000000000_100000000011#32 = .ok (.xload 2051) := by decide
/-- OP 0x06, P = 0, WM1 = 33. -/
theorem test_decode_extu : decode 0b000110_0000000000000000000_0_100001#32 = .ok (.extu 34 false) := by decide
/-- OP 0x06, P = 1, WM1 = 11: DISPATCH (30_encoding.md R88). -/
theorem test_decode_dispatch : decode 0b000110_0000000000000000000_1_001011#32 = .ok Instr.dispatch := by decide
/-- OP 0x07, P = 1, WM1 = 63. -/
theorem test_decode_exts : decode 0b000111_0000000000000000000_1_111111#32 = .ok (.exts 64 true) := by decide
theorem test_decode_align : decode 0b001000_00000000000000000000000000#32 = .ok .align := by decide

/-- V-K3, V-K5, V-K6, V-B37, V-F18 and the CRC vectors: the ILLEGAL words, and each format's lowest reserved bit. -/
theorem test_decode_illegal :
    decode 0x24000000#32 = .error .undefinedOpcode ∧ decode 0xFC000005#32 = .error .undefinedOpcode ∧
    decode 0x00000001#32 = .error .reservedBitSet ∧ decode 0x04000001#32 = .error .reservedBitSet ∧
    decode 0x0A000000#32 = .error .reservedBitSet ∧ decode 0x0C002000#32 = .error .reservedBitSet ∧
    decode 0x10000400#32 = .error .reservedBitSet ∧ decode 0x14001000#32 = .error .reservedBitSet ∧
    decode 0x18000080#32 = .error .reservedBitSet ∧ decode 0x1C000080#32 = .error .reservedBitSet ∧
    decode 0x20000001#32 = .error .reservedBitSet := by decide

/-- spec/opcode_table.json, the CRC row with A = 2 and N = 1, and the EXTS row with P = 1 and WM1 = 63. -/
theorem test_decodeTableWord :
    decodeTableWord 32 0x08001002 = some (.crc 2 1) ∧ decodeTableWord 32 0x1C00007F = some (.exts 64 true) ∧
    decodeTableWord 32 0x24000000 = none := by decide

/-- The placed word runs in the very next step after reset: XSETLEN 10 (30_encoding.md R89, 41_bitfield.md R130). -/
theorem test_withFetchWord :
    got (step (State.reset.withFetchWord 32 0x1000000A)) (fun t => (t.plen, t.pending, t.turns)) =
      some (10#10, none, []) := by decide

/-! ## The assembler (30_encoding.md R87 to R89) -/

theorem test_assemble :
    Assembler.assemble "CRC 0, 9" = some 0x08009000#32 ∧ Assembler.assemble "EXTS 0x26 ; 38" = some 0x1C000025#32 ∧
    Assembler.assemble "EXTU.P 12" = some 0x1800004B#32 ∧ Assembler.assemble "SKIP 64" = some 0x1800003F#32 ∧
    Assembler.assemble "EXTU 65" = none ∧ Assembler.assemble "XSETLEN 1024" = none := by decide +kernel

/-- Lines of program P1 and P4 (95_test_vectors.md). -/
theorem test_assemble_host :
    Assembler.assembleHost "WR 0x10000, 0x010400D3" = some [.write 0x10000#19 0x010400D3#32] ∧
    Assembler.assembleHost "ISSUE PUSH 10" = some [.write 0x00004#19 0x0C00000A#32, .poll] ∧
    Assembler.assembleHost "ISSUE 0x24000000" = some [.write 0x00004#19 0x24000000#32, .poll] ∧
    Assembler.assembleHost "RD 0x0002C" = some [.read 0x0002C#19] := by decide +kernel

/-- A comment line of program P3 (95_test_vectors.md) is no move and no refusal (log entry 14). -/
theorem test_assemble_host_comment_line :
    Assembler.assembleHost "                               ; M5 candidate at 11 is incomplete (needs 25 bytes, has 12)" =
      some [] ∧ Assembler.assembleHost "PUSH 10" = none := by decide +kernel

/-! ## Control commands -/

/-- V-K2. -/
theorem test_nop_keeps_sticky_bits :
    got (exec .nop { State.reset with cause := .bounds, err := true, xfail := true, errcmd := 0x18000000#32 })
      (fun t => (t.statusWord, t.errcmd)) = some (0x300#32, 0x18000000#32) := by decide

/-- V-K4: RESET keeps MAXRET. -/
theorem test_reset_keeps_maxret :
    got (exec .reset
        { patAt 7 with cause := .bounds, err := true, xfail := true, errcmd := 0x18000000#32, maxret := 500#15
                       rlen := 23#15, crc := 5#24, result := 9#64, lastw := 3#7 })
      (fun t => (t.statusWord, t.errcmd, t.rlen, t.plen, t.cur, t.result, t.lastw, t.crc, t.maxret)) =
    some (0#32, 0#32, 0#15, 0#10, 0#13, 0#64, 0#7, 0#24, 500#15) := by decide

/-! ## The CRC unit -/

/-- V-C4, V-C6, V-C7 and V-C9. -/
theorem test_crc24q :
    crc24q [0x01#8] = 0x864CFB#24 ∧ crc24q [0x80#8] = 0x3347A4#24 ∧ crc24q [0xFF#8] = 0xDD8538#24 ∧
    crc24q [0xD3#8, 0x00#8, 0x00#8] = 0x47EA4B#24 := by decide +kernel

/-- V-C15, V-C16: the residue of a valid frame. -/
theorem test_crc24q_residue : crc24q F1 = 0#24 ∧ crc24q M5 = 0#24 := by decide +kernel

/-- V-C1, by the command `CRC 0, 9`. -/
theorem test_crc :
    got (exec (.crc 0 9)
        (withInput [0x31#8, 0x32#8, 0x33#8, 0x34#8, 0x35#8, 0x36#8, 0x37#8, 0x38#8, 0x39#8]))
      (fun t => (t.crc, t.statusWord)) = some (0xCDE703#24, 0#32) := by decide +kernel

/-- The vector `CRC 1, 4096`. -/
theorem test_crc_range :
    got (exec (.crc 1 4096) { State.reset with crc := 7#24 }) (fun t => (t.statusWord, t.errcmd, t.crc)) =
      some (0x104#32, 0x09000001#32, 7#24) := by decide

/-! ## The framer -/

/-- V-S1, V-F1. -/
theorem test_push_frame :
    got (exec (.push 10) (withInput F1)) (fun t => (t.fcount, t.oblen, t.rlen, t.statusWord)) =
      some (1#12, 10#15, 0#15, 0#32) ∧
    got (exec (.push 10) (withInput F1)) (fun t => (t.desc 0, t.frameBytes 0)) = some (0x000A0000#32, F1) := by
  decide +kernel

/-- V-F18. -/
theorem test_push_range :
    got (exec (.push 4097) { State.reset with rlen := 3#15 }) (fun t => (t.statusWord, t.errcmd, t.rlen)) =
      some (0x104#32, 0x0C001001#32, 3#15) := by decide

/-- V-S2, V-F2: a mismatch is retained, and the retained bytes go with the next frame. -/
theorem test_pushBytes_mismatch :
    pushBytes 6 10000 [] F1x = { frames := [], retained := F1x } ∧
    pushBytes 6 10000 F1x [] = { frames := [], retained := F1x } ∧
    pushBytes 6 10000 F1x F1 = { frames := [F1], retained := [] } := by decide +kernel

/-- V-F5, V-F11, V-F12: reserved bits ignored, frames back to back, an unexamined preamble kept. -/
theorem test_pushBytes_stream :
    (pushBytes 6 10000 [] FR).frames = [FR] ∧
    descriptors 0 (pushBytes 6 10000 [] (F1 ++ M5 ++ F0)).frames = [0x000A0000#32, 0x0019000A#32, 0x00060023#32] ∧
    pushBytes 6 10000 [] (F1 ++ [0xD3#8, 0x00#8]) = { frames := [F1], retained := [0xD3#8, 0x00#8] } := by
  decide +kernel

/-- V-F9 (a false preamble that announces more bytes stops the scan) and V-F15 (eviction). -/
theorem test_pushBytes_retains :
    pushBytes 6 10000 [] ([0x00#8, 0xD3#8, 0x11#8] ++ F1 ++ [0xD3#8, 0x00#8]) =
      { frames := [], retained := [0x00#8, 0xD3#8, 0x11#8] ++ F1 ++ [0xD3#8, 0x00#8] } ∧
    (pushBytes 6 8 [] ((List.range 20).map fun k => BitVec.ofNat 8 (0x10 + k))).retained =
      [0x1C#8, 0x1D#8, 0x1E#8, 0x1F#8, 0x20#8, 0x21#8, 0x22#8, 0x23#8] := by decide +kernel

/-- V-F10: with MAXRET = 0 no frame spans two pushes. -/
theorem test_pushChunks_maxret_zero :
    pushChunks 6 0 [] (F1.map fun b => [b]) = [] ∧ pushChunks 6 1028 [] (F1.map fun b => [b]) = [F1] ∧
    (pushBytes 6 0 [] F1).frames = [F1] := by decide +kernel

/-- V-F17: the other reading of the scan bound. -/
theorem test_scanTail_seven :
    pushBytes 7 10000 [] F0 = { frames := [], retained := F0 } ∧
    pushBytes 7 10000 [] (F0 ++ [0x00#8]) = { frames := [F0], retained := [0x00#8] } := by decide +kernel

/-! ## The extractor -/

/-- 41_bitfield.md R130, with XFAIL cleared (V-S6). -/
theorem test_xsetlen :
    got (exec (.xsetlen 10) { patAt 64 with cause := .bounds, err := true, xfail := true })
      (fun t => (t.plen, t.cur, t.statusWord)) = some (10#10, 0#13, 0x100#32) := by decide

/-- Program P1: `XLOAD 0` after the push of F1. -/
theorem test_xload :
    got (exec (.xload 0) afterF1) (fun t => (t.plen, t.cur, t.pbuf)) =
      some (4#10, 0#13, [(0, 0x01#8), (1, 0x02#8), (2, 0x03#8), (3, 0x04#8)]) := by decide +kernel

/-- V-B35. -/
theorem test_xload_range :
    got (exec (.xload 0) State.reset) (fun t => (t.statusWord, t.errcmd)) = some (0x104#32, 0x14000000#32) := by decide

/-- V-B7, V-B11. -/
theorem test_extu :
    got (exec (.extu 8 false) (patAt 2)) (fun t => (t.result, t.lastw, t.cur)) = some (0xC0#64, 8#7, 10#13) ∧
    got (exec (.extu 64 false) (patAt 4)) (fun t => (t.result, t.lastw, t.cur)) =
      some (0x00FA55A123456789#64, 64#7, 68#13) := by decide +kernel

/-- V-B15. -/
theorem test_extu_bounds :
    got (exec (.extu 64 false) (patAt 17)) (fun t => (t.statusWord, t.errcmd, t.cur, t.result)) =
      some (0x306#32, 0x1800003F#32, 17#13, 0#64) := by decide

/-- V-B8, V-B24. -/
theorem test_exts :
    got (exec (.exts 8 false) (patAt 2)) (fun t => (t.result, t.lastw, t.cur)) =
      some (0xFFFFFFFFFFFFFFC0#64, 8#7, 10#13) ∧
    got (exec (.exts 16 false) (patAt 16)) (fun t => (t.result, t.cur)) = some (0xFFFFFFFFFFFFA55A#64, 32#13) := by
  decide +kernel

/-- V-B23: a signed peek. -/
theorem test_exts_peek :
    got (exec (.exts 12 true) (patAt 8)) (fun t => (t.result, t.lastw, t.cur)) = some (0xFA#64, 12#7, 8#13) := by
  decide +kernel

/-- V-B27, V-B28. -/
theorem test_align :
    got (exec .align (patAt 1)) (fun t => (t.result, t.lastw, t.cur)) = some (0x70#64, 7#7, 8#13) ∧
    got (exec .align (patAt 13)) (fun t => (t.result, t.lastw, t.cur)) = some (7#64, 3#7, 16#13) := by decide +kernel

/-- V-B11 by the barrel shifter's shape (41_bitfield.md R121). -/
theorem test_barrel : barrelRead PAT 4 64 = 0x00FA55A123456789 := by decide +kernel

/-! ## The register port, the agents and reset -/

/-- V-K7. -/
theorem test_maxret_clamp :
    (memWrite 0x00034#19 0xFFFFFFFF#32 State.reset).readWord 0x00034#19 = 0x4000#32 ∧
    (memWrite 0x00034#19 64#32 State.reset).readWord 0x00034#19 = 64#32 := by decide +kernel

/-- V-K8. -/
theorem test_status_w1c :
    (memWrite 0x00008#19 0x100#32
      { State.reset with cause := .bounds, err := true, xfail := true }).statusWord = 0x206#32 ∧
    (memWrite 0x00008#19 0xFFFFFFFF#32
      { State.reset with cause := .bounds, err := true, xfail := true, hz := true }).statusWord = 0x206#32 := by decide

/-- V-K10. -/
theorem test_pbuf_top_lane : (memWrite 0x203FC#19 0xAABBCCDD#32 State.reset).readWord 0x203FC#19 = 0x00BBCCDD#32 := by
  decide +kernel

/-- V-K11. -/
theorem test_ibuf_lanes :
    (memWrite 0x10000#19 0x010400D3#32 State.reset).ibuf = [(0, 0xD3#8), (1, 0x00#8), (2, 0x04#8), (3, 0x01#8)] ∧
    (memWrite 0x10000#19 0x010400D3#32 State.reset).readWord 0x10000#19 = 0x010400D3#32 := by decide +kernel

/-- V-K12: a write while busy is dropped with HZ set, and the pending PUSH completes on IBUF as it was. -/
theorem test_hazard :
    got (Host.Core.run core 2
        { withInput F1 with pending := some 0x0C00000A#32, turns := [.write 0x10000#19 0#32] })
      (fun t => (t.fcount, t.statusWord, t.pending)) = some (1#12, 0x400#32, none) := by decide +kernel

/-- An illegal word (V-E1: ILLEGAL wins over RANGE) by the engine's turn. -/
theorem test_engine_illegal :
    got (step (pendingWord 0x0C003001#32)) (fun t => (t.statusWord, t.errcmd, t.pending)) =
      some (0x102#32, 0x0C003001#32, none) := by decide

/-- 70_reset_and_hazards.md R230: a port access while the reset input is asserted has no step. -/
theorem test_access_in_reset :
    step { State.reset with inReset := true, turns := [.read 0x00000#19] } = .fault .portAccessInReset := rfl

/-- V-K1 and the address map's reserved words (V-K9). -/
theorem test_reset_reads :
    State.reset.readWord 0x00000#19 = 0x43523234#32 ∧ State.reset.readWord 0x00034#19 = 0x2710#32 ∧
    State.reset.readWord 0x00038#19 = 0#32 ∧ State.reset.readWord 0x50000#19 = 0#32 := by decide +kernel

/-! ## Witnesses: the hypotheses of each statement, met together -/

/-- A field read off an outcome shows that the outcome is a next state. -/
theorem next_of_got {α : Type} {o : Host.Outcome State Fault Refusal} {f : State → α} {v : α} (h : got o f = some v) :
    ∃ t, o = .next t ∧ f t = v := by
  cases o with
  | next t => exact ⟨t, rfl, Option.some.inj h⟩
  | fault r => cases h
  | refused r => cases h

/-- A list's elements checked one by one. -/
theorem forall_of_all {α : Type} {P : α → Prop} [DecidablePred P] {l : List α}
    (h : l.all (fun a => decide (P a)) = true) : ∀ a ∈ l, P a :=
  fun a ha => of_decide_eq_true (List.all_eq_true.1 h a ha)

theorem witness_DecodeOfEncodeIsIdentity :
    (Instr.crc 4095 8191).WellFormed ∧ (Instr.push 8191).WellFormed ∧ (Instr.xsetlen 1023).WellFormed ∧
    (Instr.xload 4095).WellFormed ∧ (Instr.extu 1 true).WellFormed ∧ (Instr.extu 64 true).WellFormed ∧
    (Instr.exts 1 false).WellFormed ∧ (Instr.exts 64 true).WellFormed := by decide

theorem witness_EncodeOfDecodeIsIdentity :
    decode 0x09FFFFFF#32 = .ok (.crc 4095 8191) ∧ decode 0x1C00007F#32 = .ok (.exts 64 true) := by decide

theorem witness_IllegalWordsAreExactlyThoseOfR85 :
    ((pendingWord 0xFC000005#32).Completing 0xFC000005#32 ∧
      State.Completing { pendingWord 0xFC000005#32 with turns := [.poll] } 0xFC000005#32) ∧
    ∀ w ∈ [0xFC000005#32, 0x24000000#32, 0x00000001#32, 0x06000000#32, 0x20000001#32, 0x0A000000#32, 0x0C002000#32,
      0x10000400#32, 0x14001000#32, 0x18000080#32, 0x1C000080#32], IllegalWord w :=
  ⟨by decide, forall_of_all (by decide)⟩

theorem witness_PseudoCommandWords :
    encode (Instr.peeku 1) = 0x18000040#32 ∧ encode (Instr.peeks 64) = 0x1C00007F#32 ∧
    encode (Instr.skip 64) = 0x1800003F#32 := by decide

theorem witness_AssembledWordsDecode :
    Assembler.parseCommand "CRC 4095, 8191".toList = some (.crc 4095 8191) ∧
    Numeral "4095".toList 4095 ∧ Numeral "0x2000".toList 8192 ∧ Numeral "0x7FFFF".toList (2 ^ 19 - 1) ∧
    Numeral "0xFfffffff".toList (2 ^ 32 - 1) ∧ Numeral "0".toList 0 ∧ Numeral "65".toList 65 :=
  ⟨by decide +kernel, .decimal [4, 0, 9, 5] (by decide) (by decide),
    .hexadecimal ['2', '0', '0', '0'] [2, 0, 0, 0] (by decide) (by decide) (by decide),
    .hexadecimal ['7', 'F', 'F', 'F', 'F'] [7, 15, 15, 15, 15] (by decide) (by decide) (by decide),
    .hexadecimal ['F', 'f', 'f', 'f', 'f', 'f', 'f', 'f'] [15, 15, 15, 15, 15, 15, 15, 15] (by decide) (by decide)
      (by decide), .decimal [0] (by decide) (by decide), .decimal [6, 5] (by decide) (by decide)⟩

theorem witness_StepRunsTheDecodedCommand :
    ((pendingWord 0x18000000#32).Completing 0x18000000#32 ∧ decode 0x18000000#32 = .ok (.extu 1 false)) ∧
    { pendingWord 0x18000000#32 with turns := [.poll] }.turns.head? = some .poll ∧
    decode 0x18000080#32 = .error .reservedBitSet ∧
    State.Completing { pendingWord 0x18000000#32 with turns := [.engine, .poll] } 0x18000000#32 := by decide

theorem witness_EveryPendingWordCompletes :
    (pendingWord 0xFFFFFFFF#32).Completing 0xFFFFFFFF#32 ∧ (pendingWord 0#32).Completing 0#32 ∧
    { pendingWord 0#32 with inReset := true, turns := [.engine, .poll] }.turns = .engine :: [.poll] ∧
    { State.reset with inReset := true }.turns = [] := by decide

theorem witness_CauseFollowsTheCheckOrder :
    (∃ t, step (pendingWord 0x0C003001#32) = .next t ∧ t.cause = .illegal) ∧ IllegalWord 0x0C003001#32 ∧
    (∃ t, step (pendingWord 0x0C001001#32) = .next t ∧ t.cause = .range) ∧
    decode 0x0C001001#32 = .ok (.push 4097) ∧
    (∃ t, step (pendingWord 0x18000000#32) = .next t ∧ t.cause = .bounds) ∧
    decode 0x18000000#32 = .ok (.extu 1 false) ∧
    (∃ t, step (pendingWord 0x20000000#32) = .next t ∧ t.cause = .ok) ∧ decode 0x20000000#32 = .ok .align :=
  ⟨next_of_got (f := (·.cause)) (by decide), by decide, next_of_got (f := (·.cause)) (by decide), by decide,
    next_of_got (f := (·.cause)) (by decide), by decide, next_of_got (f := (·.cause)) (by decide), by decide⟩

theorem witness_CausesByCommand :
    (∃ t, exec (.crc 1 4096) State.reset = .next t ∧ t.cause = .range) ∧
    (∃ t, exec (.push 4097) State.reset = .next t ∧ t.cause = .range) ∧
    (∃ t, exec (.xload 0) State.reset = .next t ∧ t.cause = .range) ∧
    (∃ t, exec (.extu 1 false) State.reset = .next t ∧ t.cause = .bounds) ∧
    (∃ t, exec (.exts 1 true) State.reset = .next t ∧ t.cause = .bounds) ∧
    (∃ t, exec (.crc 4096 0) State.reset = .next t ∧ t.cause = .ok) :=
  ⟨next_of_got (f := (·.cause)) (by decide), next_of_got (f := (·.cause)) (by decide),
    next_of_got (f := (·.cause)) (by decide), next_of_got (f := (·.cause)) (by decide),
    next_of_got (f := (·.cause)) (by decide), next_of_got (f := (·.cause)) (by decide)⟩

theorem witness_FailedCommandHasNoOtherEffect :
    ((pendingWord 0x18000000#32).Completing 0x18000000#32 ∧
      ∃ t, step (pendingWord 0x18000000#32) = .next t ∧ t.cause = .bounds) ∧
    ∃ t, step (pendingWord 0x14000FFF#32) = .next t ∧ t.cause = .range :=
  ⟨⟨by decide, next_of_got (f := (·.cause)) (by decide)⟩, next_of_got (f := (·.cause)) (by decide)⟩

theorem witness_ErrcmdHoldsTheLastFailingWord :
    (∃ t, step (pendingWord 0x24000000#32) = .next t ∧ t.cause = .illegal) ∧
    (∃ t, step (pendingWord 0x00000000#32) = .next t ∧ t.cause = .ok) ∧ decode 0x00000000#32 ≠ .ok .reset ∧
    (∃ t, step (pendingWord 0x04000000#32) = .next t ∧ t.cause = .ok) ∧ decode 0x04000000#32 = .ok .reset ∧
    State.reset.pending = none :=
  ⟨next_of_got (f := (·.cause)) (by decide), next_of_got (f := (·.cause)) (by decide), by decide,
    next_of_got (f := (·.cause)) (by decide), by decide, rfl⟩

theorem witness_IdleBlockWaits : afterF1.pending = none ∧ afterF1.turns = [] := ⟨rfl, rfl⟩

theorem witness_NopResult :
    (field 0x02000000#32 31 26 = 0x00 ∧ field 0x02000000#32 25 0 ≠ 0) ∧
    { State.reset with cause := .bounds, err := true, xfail := true }.statusWord = 0x306#32 := by decide

theorem witness_ResetResult : field 0x04000001#32 31 26 = 0x01 ∧ field 0x04000001#32 25 0 ≠ 0 := by decide

theorem witness_CrcIsLinear : ([0x01#8, 0x02#8] : Bytes).length = ([0x03#8, 0x04#8] : Bytes).length := rfl

theorem witness_CrcCommandResult :
    4095 + 1 ≤ 4096 ∧ 0 + 4096 ≤ 4096 ∧ 1 + 4096 > 4096 ∧
    field 0x0A000000#32 31 26 = 0x02 ∧ field 0x0A000000#32 25 25 ≠ 0 := by decide

theorem afterF1_inv : afterF1.Inv := by decide +kernel

theorem witness_PushResult :
    afterF1.Inv ∧ State.reset.Inv ∧ 4096 ≤ 4096 ∧ 4097 > 4096 ∧
    field 0x0C002000#32 31 26 = 0x03 ∧ field 0x0C002000#32 25 13 ≠ 0 :=
  ⟨afterF1_inv, by decide +kernel, by decide, by decide, by decide, by decide⟩

theorem witness_ScanIsTheOnlyScanRun : 6 ≤ 7 ∧ ScanRun 6 F0 0 0 [F0] 6 ∧ ScanRun 7 F0 0 0 [] 0 :=
  ⟨by decide, .frame (by decide) (by decide) (by decide) (by decide +kernel) (.atEnd (by decide)), .atEnd (by decide)⟩

theorem witness_PushEmitsOnlyValidFrames : F1 ∈ (pushBytes 6 0 F1x (F1 ++ F0)).frames := by decide +kernel

theorem witness_FramesAreInStreamOrder :
    (withInput (F1x ++ F1 ++ F0)).Inv ∧ 26 ≤ 4096 ∧
    ∃ t, exec (.push 26) (withInput (F1x ++ F1 ++ F0)) = .next t ∧ t.fcount = 2#12 :=
  ⟨by decide +kernel, by decide, next_of_got (f := (·.fcount)) (by decide +kernel)⟩

theorem witness_PushOutputFits :
    (List.replicate 16384 0xD3#8).length ≤ 16384 ∧ (List.replicate 4096 0xD3#8).length ≤ 4096 := by
  simp only [List.length_replicate, le_refl, and_self]

/-- No frame and no eviction, a frame and a tail, two equal frames, and eviction (43_framer.md R182). -/
theorem witness_PushRetention :
    (withInput F1x).Inv ∧ (∃ t, exec (.push 10) (withInput F1x) = .next t ∧ (t.fcount, t.rlen) = (0#12, 10#15)) ∧
    (∃ t, exec (.push 11) (withInput (F1 ++ [0xD3#8])) = .next t ∧ (t.fcount, t.rlen) = (1#12, 1#15)) ∧
    (∃ t, exec (.push 12) (withInput (F0 ++ F0)) = .next t ∧ (t.fcount, t.rlen) = (2#12, 0#15)) ∧
    State.Inv { withInput F1x with maxret := 8#15 } ∧
    ∃ t, exec (.push 10) { withInput F1x with maxret := 8#15 } = .next t ∧ (t.fcount, t.rlen) = (0#12, 8#15) :=
  ⟨by decide +kernel, next_of_got (f := fun t => (t.fcount, t.rlen)) (by decide +kernel),
    next_of_got (f := fun t => (t.fcount, t.rlen)) (by decide +kernel),
    next_of_got (f := fun t => (t.fcount, t.rlen)) (by decide +kernel), by decide +kernel,
    next_of_got (f := fun t => (t.fcount, t.rlen)) (by decide +kernel)⟩

theorem witness_PushReportsNoFramingError :
    4096 ≤ 4096 ∧ ∃ t, exec (.push 10) (withInput F1x) = .next t ∧ t.cause = .ok :=
  ⟨by decide, next_of_got (f := (·.cause)) (by decide +kernel)⟩

theorem witness_PushIsChunkingIndependent : 1028 ≤ 1028 ∧ (F1.map fun b => [b]).flatten.length ≤ 4096 := by decide

theorem witness_BuiltFrameIsAccepted :
    (List.replicate 1023 0x00#8).length ≤ 1023 ∧ ([] : Bytes).length ≤ 1023 := by
  simp only [List.length_replicate, le_refl, List.length_nil, Nat.zero_le, and_self]

theorem witness_XsetlenResult :
    1023 ≤ 1023 ∧ field 0x10000400#32 31 26 = 0x04 ∧ field 0x10000400#32 25 10 ≠ 0 := by decide

theorem witness_XloadResult :
    (afterF1.Inv ∧ 0 < afterF1.fcount.toNat) ∧ afterF1.fcount.toNat ≤ 1 ∧
    field 0x14001000#32 31 26 = 0x05 ∧ field 0x14001000#32 25 12 ≠ 0 :=
  ⟨⟨afterF1_inv, by decide +kernel⟩, by decide +kernel, by decide, by decide⟩

theorem witness_ExtuResult :
    ((patAt 16).cur.toNat + 64 ≤ 8 * (patAt 16).plen.toNat ∧ (patAt 79).cur.toNat + 1 ≤ 8 * (patAt 79).plen.toNat) ∧
    (patAt 17).cur.toNat + 64 > 8 * (patAt 17).plen.toNat ∧ (patAt 80).cur.toNat + 1 > 8 * (patAt 80).plen.toNat ∧
    field 0x18000080#32 31 26 = 0x06 ∧ field 0x18000080#32 25 7 ≠ 0 := by decide

theorem witness_ExtsResult :
    ((patAt 16).cur.toNat + 64 ≤ 8 * (patAt 16).plen.toNat ∧ (patAt 79).cur.toNat + 1 ≤ 8 * (patAt 79).plen.toNat) ∧
    (patAt 17).cur.toNat + 64 > 8 * (patAt 17).plen.toNat ∧ (patAt 80).cur.toNat + 1 > 8 * (patAt 80).plen.toNat ∧
    field 0x1C000080#32 31 26 = 0x07 ∧ field 0x1C000080#32 25 7 ≠ 0 := by decide

theorem witness_AlignResult :
    (patAt 1).cur.toNat ≤ 8 * (patAt 1).plen.toNat ∧ (patAt 80).cur.toNat ≤ 8 * (patAt 80).plen.toNat ∧
    field 0x20000001#32 31 26 = 0x08 ∧ field 0x20000001#32 25 0 ≠ 0 := by decide

theorem witness_PeekLeavesTheCursor :
    (∃ t, exec (.extu 64 true) (patAt 16) = .next t ∧ t.cur = 16#13) ∧
    (∃ t, exec (.extu 64 false) (patAt 16) = .next t ∧ t.cur = 80#13) ∧
    (∃ t, exec (.exts 1 true) (patAt 80) = .next t ∧ t.cause = .bounds) ∧
    (∃ t, exec (.exts 1 false) (patAt 80) = .next t ∧ t.cause = .bounds) ∧
    (patAt 0).cur = 0#13 ∧ 2 ≤ (patAt 0).plen.toNat :=
  ⟨next_of_got (f := (·.cur)) (by decide +kernel), next_of_got (f := (·.cur)) (by decide +kernel),
    next_of_got (f := (·.cause)) (by decide), next_of_got (f := (·.cause)) (by decide), by decide, by decide⟩

theorem witness_ExtractionLeavesPayloadAndFramer :
    (∃ t, exec (.extu 64 false) (patAt 16) = .next t ∧ t.cause = .ok) ∧
    (∃ t, exec (.exts 64 false) (patAt 17) = .next t ∧ t.cause = .bounds) ∧
    (∃ t, exec .align (patAt 77) = .next t ∧ t.cause = .ok) :=
  ⟨next_of_got (f := (·.cause)) (by decide +kernel), next_of_got (f := (·.cause)) (by decide),
    next_of_got (f := (·.cause)) (by decide +kernel)⟩

theorem witness_BarrelShifterGivesTheField : 64 ≤ 64 ∧ 16 + 64 ≤ 8 * PAT.length := by decide

/-- PAT and PAT with a later byte changed, read at CUR = 2. -/
theorem witness_ReadDependsOnlyOnItsBits :
    let s := patAt 2
    let s' := { patAt 2 with pbuf := Memory.write (patAt 2).pbuf 9 0x00#8 }
    s'.cur = s.cur ∧ s'.plen = s.plen ∧ s.cur.toNat + 8 ≤ 8 * s.plen.toNat ∧
    (∀ p, s.cur.toNat ≤ p → p < s.cur.toNat + 8 → s'.streamBit p = s.streamBit p) ∧
    (∃ t, exec (.extu 8 false) s = .next t ∧ t.cur = 10#13) ∧ ∃ t, exec (.extu 8 false) s' = .next t ∧ t.cur = 10#13 := by
  refine ⟨rfl, rfl, by decide, fun p h1 h2 => ?_, next_of_got (f := (·.cur)) (by decide +kernel),
    next_of_got (f := (·.cur)) (by decide +kernel)⟩
  have h1' : 2 ≤ p := h1
  have h2' : p < 10 := h2
  interval_cases p <;> decide

theorem witness_LayoutFitsExactlyWhenItsWidthsDo :
    (∀ f ∈ [(64, false), (16, true)], 1 ≤ f.1 ∧ f.1 ≤ 64) ∧ (patAt 0).cur = 0#13 ∧
    (runAll ([(64, false), (16, true)].map fieldRead) (patAt 0)).map (·.cur) = some 80#13 ∧
    runAll ([(64, true), (17, false)].map fieldRead) (patAt 0) = none ∧
    (runAll [.extu 13 false, .exts 12 true, .align, .nop, .exts 64 false] (patAt 0)).map (·.cur) = some 80#13 ∧
    cursorAfter [.extu 13 false, .exts 12 true, .align, .nop, .exts 64 false] 0 = 80 := by decide +kernel

theorem witness_CmdWriteIssuesTheCommand :
    (writing 0x00004#19 5#32).turns = .write 0x00004#19 5#32 :: [] ∧ (writing 0x00004#19 5#32).inReset = false ∧
    (writing 0x00004#19 5#32).pending = none ∧ (writingBusy 0x00004#19 5#32).turns = .write 0x00004#19 5#32 :: [] ∧
    (writingBusy 0x00004#19 5#32).inReset = false ∧ (writingBusy 0x00004#19 5#32).busy = true := by decide

theorem witness_WriteWhileBusyIsDropped :
    (writingBusy 0x7FFFF#19 1#32).turns = .write 0x7FFFF#19 1#32 :: [] ∧
    (writingBusy 0x7FFFF#19 1#32).inReset = false ∧ (writingBusy 0x7FFFF#19 1#32).busy = true := by decide

theorem witness_ReadWhileBusy :
    let s : BitVec 19 → State := fun a => { pendingWord 0#32 with turns := [.read a] }
    ((s 0x00000#19).turns = .read 0x00000#19 :: [] ∧ (s 0x00000#19).inReset = false ∧ (s 0x00000#19).busy = true) ∧
    ((s 0x00008#19).turns = .read 0x00008#19 :: [] ∧ (s 0x00008#19).inReset = false ∧ (s 0x00008#19).busy = true) := by
  decide

theorem witness_ReadsHaveNoSideEffect :
    { State.reset with turns := [.read 0x00000#19] }.turns = .read 0x00000#19 :: [] ∧
    { State.reset with turns := [.read 0x00000#19] }.inReset = false := by decide

theorem witness_StatusWordFields : afterF1.pending = none := rfl

theorem witness_StatusWriteOneToClear :
    (writing 0x00008#19 0x500#32).turns = .write 0x00008#19 0x500#32 :: [] ∧
    (writing 0x00008#19 0x500#32).inReset = false ∧ (writing 0x00008#19 0x500#32).pending = none ∧
    (writingBusy 0x00008#19 0#32).turns = .write 0x00008#19 0#32 :: [] ∧
    (writingBusy 0x00008#19 0#32).inReset = false ∧ (writingBusy 0x00008#19 0#32).busy = true := by decide

theorem witness_MaxretWriteIsClamped :
    (writing 0x00034#19 16385#32).turns = .write 0x00034#19 16385#32 :: [] ∧
    (writing 0x00034#19 16385#32).inReset = false ∧ (writing 0x00034#19 16385#32).pending = none := by decide

theorem witness_IbufWordIsStoredInLanes :
    1023 < 1024 ∧
    (writing (BitVec.ofNat 19 (0x10000 + 4 * 1023)) 1#32).turns =
      .write (BitVec.ofNat 19 (0x10000 + 4 * 1023)) 1#32 :: [] ∧
    (writing (BitVec.ofNat 19 (0x10000 + 4 * 1023)) 1#32).inReset = false ∧
    (writing (BitVec.ofNat 19 (0x10000 + 4 * 1023)) 1#32).pending = none := ⟨by decide, rfl, rfl, rfl⟩

theorem witness_PbufTopLaneHasNoStorage :
    255 < 256 ∧
    (writing (BitVec.ofNat 19 (0x20000 + 4 * 255)) 1#32).turns =
      .write (BitVec.ofNat 19 (0x20000 + 4 * 255)) 1#32 :: [] ∧
    (writing (BitVec.ofNat 19 (0x20000 + 4 * 255)) 1#32).inReset = false ∧
    (writing (BitVec.ofNat 19 (0x20000 + 4 * 255)) 1#32).pending = none := ⟨by decide, rfl, rfl, rfl⟩

/-- The two ends of every run of addresses the statement covers. -/
theorem witness_OtherWritesAreIgnored :
    ∀ a ∈ [0x00000#19, 0x00003#19, 0x0000C#19, 0x00033#19, 0x00038#19, 0x0FFFF#19, 0x11000#19, 0x1FFFF#19, 0x20400#19,
      0x30000#19, 0x40000#19, 0x7FFFF#19],
    (writing a 1#32).turns = .write a 1#32 :: [] ∧ (writing a 1#32).inReset = false ∧ (writing a 1#32).pending = none ∧
    a.toNat / 4 ≠ 1 ∧ a.toNat / 4 ≠ 2 ∧ a.toNat / 4 ≠ 13 ∧
    ¬(0x10000 ≤ a.toNat ∧ a.toNat ≤ 0x10FFF) ∧ ¬(0x20000 ≤ a.toNat ∧ a.toNat ≤ 0x203FF) := forall_of_all (by decide +kernel)

theorem witness_IdleReadsOfTheOutputWindows :
    afterF1.pending = none ∧
    (∀ a ∈ [0x00038#19, 0x03FFF#19, 0x08000#19, 0x0FFFF#19, 0x11000#19, 0x1FFFF#19, 0x20400#19, 0x2FFFF#19, 0x35000#19,
        0x3FFFF#19, 0x45000#19, 0x7FFFF#19],
      0x38 ≤ a.toNat ∧ a.toNat < 0x4000 ∨ 0x8000 ≤ a.toNat ∧ a.toNat < 0x10000 ∨
      0x11000 ≤ a.toNat ∧ a.toNat < 0x20000 ∨ 0x20400 ≤ a.toNat ∧ a.toNat < 0x30000 ∨
      0x35000 ≤ a.toNat ∧ a.toNat < 0x40000 ∨ 0x45000 ≤ a.toNat) ∧
    0 < afterF1.fcount.toNat ∧ 4 * 2 + 1 < afterF1.oblen.toNat ∧ ¬4 * 2 + 2 < afterF1.oblen.toNat ∧
    4 * 2 + 1 < (storePush (pushBytes 6 10000 [] F1x) State.reset).rlen.toNat :=
  ⟨rfl, forall_of_all (by decide +kernel), by decide +kernel, by decide +kernel, by decide +kernel, by decide +kernel⟩

theorem witness_IssueCompletesTheCommand :
    { State.reset with turns := issueWord 0xFFFFFFFF#32 }.turns = issueWord 0xFFFFFFFF#32 ++ [] ∧
    { State.reset with turns := issueWord 0xFFFFFFFF#32 }.inReset = false ∧
    { State.reset with turns := issueWord 0xFFFFFFFF#32 }.pending = none := by decide

theorem witness_HardwareResetFromAnyState :
    let r : Turn → State := fun t => { State.reset with inReset := true, turns := [t] }
    ((r .poll).inReset = true ∧ (r .poll).turns = .poll :: []) ∧ (r (.read 0#19)).turns = .read 0#19 :: [] ∧
    (r (.write 4#19 0#32)).turns = .write 4#19 0#32 :: [] ∧
    { pendingWord 0x04000000#32 with turns := [.assertReset, .releaseReset] }.turns =
      .assertReset :: .releaseReset :: [] ∧
    ((r .assertReset).inReset = true ∧ (r .assertReset).turns = .assertReset :: []) ∧
    ((r .engine).inReset = true ∧ (r .engine).pending = none ∧ (r .engine).turns = .engine :: []) ∧
    (r .releaseReset).inReset = true ∧ (r .releaseReset).turns = .releaseReset :: [] := by decide

/-- RESET as the engine runs it, its own word still pending. -/
theorem witness_SoftResetDiffersOnlyInMaxretAndMemory :
    ∃ t, exec .reset { patAt 7 with pending := some 0x04000000#32 } = .next t ∧
      (t.cur, t.pending) = (0#13, some 0x04000000#32) :=
  next_of_got (f := fun t => (t.cur, t.pending)) (by decide)

/-- From a state with an emitted frame, the completion of `XLOAD 0`. -/
theorem witness_EveryStepKeepsTheInvariant :
    State.Inv { afterF1 with pending := some 0x14000000#32 } ∧
    ∃ t, step { afterF1 with pending := some 0x14000000#32 } = .next t ∧ t.plen = 4#10 :=
  ⟨by decide +kernel, next_of_got (f := (·.plen)) (by decide +kernel)⟩

theorem witness_RetentionBoundIsKept :
    (∃ t, step { withInput F1x with pending := some 0x0C00000A#32 } = .next t ∧ t.rlen = 10#15) ∧
    (withInput F1x).rlen.toNat ≤ (withInput F1x).maxret.toNat ∧
    4096 ≤ 4096 ∧ ∃ t, exec (.push 10) (withInput F1x) = .next t ∧ t.rlen = 10#15 :=
  ⟨next_of_got (f := (·.rlen)) (by decide +kernel), by decide, by decide,
    next_of_got (f := (·.rlen)) (by decide +kernel)⟩

/-- ERR, HZ and XFAIL each cleared, and ERRCMD changed by a failing command. -/
theorem witness_StickyBitsAreClearedOnlyAsListed :
    (∃ t, step { writing 0x00008#19 0x100#32 with err := true } = .next t ∧ t.err = false) ∧
    (∃ t, step { writing 0x0000B#19 0x400#32 with hz := true } = .next t ∧ t.hz = false) ∧
    (∃ t, step { pendingWord 0x10000000#32 with xfail := true } = .next t ∧ t.xfail = false) ∧
    (∃ t, step { pendingWord 0x04000000#32 with err := true } = .next t ∧ t.err = false) ∧
    (∃ t, step { State.reset with inReset := true, hz := true, turns := [.releaseReset] } = .next t ∧ t.hz = false) ∧
    ∃ t, step (pendingWord 0x24000000#32) = .next t ∧ t.errcmd = 0x24000000#32 :=
  ⟨next_of_got (f := (·.err)) (by decide), next_of_got (f := (·.hz)) (by decide),
    next_of_got (f := (·.xfail)) (by decide), next_of_got (f := (·.err)) (by decide),
    next_of_got (f := (·.hz)) (by decide), next_of_got (f := (·.errcmd)) (by decide)⟩

theorem witness_OnlyTheNamedCommandsWrite :
    (∃ t, exec (.push 10) (withInput F1) = .next t ∧ t.fcount = 1#12) ∧ (Instr.push 10).opcode ≠ .xload ∧
    ∃ t, exec .nop (patAt 5) = .next t ∧ t.cur = 5#13 :=
  ⟨next_of_got (f := (·.fcount)) (by decide +kernel), by decide, next_of_got (f := (·.cur)) (by decide)⟩

end Sys2Proof.Tests
end

section
/-! PROOFS. The registers CMD, STATUS and ERRCMD (10_state.md R24, R26, R27), and beside them the laws they rest on:
a word that decodes is the encoding of its command, and the endings of a command. -/

namespace Sys2Proof

/-! ## A word that decodes is the encoding of its command -/

/-- Bit `n` of a word as a number: divide and take the remainder. -/
theorem toNat_getLsbD (c : Word) (n : Nat) : (c.getLsbD n).toNat = c.toNat / 2 ^ n % 2 :=
  Nat.toNat_testBit c.toNat n

/-- The operand fields of a word that matches its row are within their limits, and give the word back
(30_encoding.md R81, R83, R87). -/
theorem Opcode.encode_operands {o : Opcode} {c : Word} (h : c &&& o.maskWord = o.matchWord) :
    (o.operands c).WellFormed ∧ encode (o.operands c) = c := by
  rw [o.matches_iff] at h
  rw [← BitVec.toNat_inj]
  have hc := c.isLt
  cases o <;> simp only [Opcode.operandBits, Opcode.matchWord, BitVec.toNat_ofNat] at h <;>
    simp only [Opcode.operands, Instr.WellFormed, field_eq, true_and]
  case nop | reset | align => simp only [encode, BitVec.toNat_ofNat]; omega
  case crc => rw [encode_crc_toNat (by omega) (by omega)]; omega
  case push => rw [encode_push_toNat (by omega)]; omega
  case xsetlen => rw [encode_xsetlen_toNat (by omega)]; omega
  case xload => rw [encode_xload_toNat (by omega)]; omega
  case extu => rw [encode_extu_toNat (by omega), toNat_getLsbD]; omega
  case exts => rw [encode_exts_toNat (by omega), toNat_getLsbD]; omega

/-- What decodes is well-formed, and its encoding is the word. -/
theorem encode_of_decode {w : Word} {i : Instr} (h : decode w = .ok i) : i.WellFormed ∧ encode i = w := by
  obtain ⟨o, -, hm, rfl⟩ := decode_eq_ok_iff.1 h
  exact Opcode.encode_operands hm

end Sys2Proof

namespace Sys2Proof.Machine

/-! ## The endings of a command -/

/-- How a command ends: it succeeds, and ERRCMD is cleared by RESET and kept by every other command (10_state.md R27,
40_control.md R111), or it raises RANGE or BOUNDS in the cases of 60_exceptions.md R202, and nothing else. -/
theorem exec_endings {i : Instr} {s t : State} (h : exec i s = .next t) :
    (¬i.RangeFails s ∧ ¬i.BoundsFails s ∧ t.cause = .ok ∧ t.errcmd = if i = .reset then 0#32 else s.errcmd) ∨
    (i.RangeFails s ∧ ¬i.BoundsFails s ∧ t = raise .range (encode i) s) ∨
    (¬i.RangeFails s ∧ i.BoundsFails s ∧ t = raise .bounds (encode i) s) := by
  cases i with
  | nop | reset | xsetlen | align => cases h; exact .inl ⟨id, id, rfl, rfl⟩
  | crc =>
    obtain ⟨hr, rfl⟩ | ⟨hr, rfl⟩ := execCrc_cases h
    · exact .inl ⟨by simpa using hr, id, rfl, rfl⟩
    · exact .inr (.inl ⟨hr, id, rfl⟩)
  | push =>
    obtain ⟨hr, rfl⟩ | ⟨hr, rfl⟩ := execPush_cases h
    · exact .inl ⟨by simpa using hr, id, rfl, rfl⟩
    · exact .inr (.inl ⟨hr, id, rfl⟩)
  | xload =>
    obtain ⟨hr, rfl⟩ | ⟨hr, rfl⟩ := execXload_cases h
    · exact .inl ⟨by simpa using hr, id, rfl, rfl⟩
    · exact .inr (.inl ⟨hr, id, rfl⟩)
  | extu | exts =>
    obtain ⟨hb, rfl⟩ | ⟨hb, rfl⟩ := extract_cases h
    · exact .inl ⟨id, by simpa using hb, rfl, rfl⟩
    · exact .inr (.inr ⟨id, by simpa using hb, rfl⟩)

/-- What the completion step of a word leaves in ERRCMD: the word where it fails; where it succeeds the old content, or
0 by RESET (10_state.md R27). RESET never fails. -/
theorem runWord_errcmd {w : Word} {s t : State} (h : runWord w s = .next t) :
    (t.cause ≠ .ok ∧ decode w ≠ .ok .reset ∧ t.errcmd = w) ∨
    (t.cause = .ok ∧ t.errcmd = if decode w = .ok .reset then 0#32 else s.errcmd) := by
  obtain ⟨r, hd, rfl⟩ | ⟨i, u, hd, hx, rfl⟩ := runWord_cases h
  · exact .inl ⟨by simp, by simp [hd], rfl⟩
  · have hw : encode i = w := (encode_of_decode hd).2
    obtain ⟨-, -, hok, herr⟩ | ⟨hf, -, rfl⟩ | ⟨-, hf, rfl⟩ := exec_endings hx
    · exact .inr ⟨hok, by simpa [hd] using herr⟩
    all_goals
      have hi : i ≠ .reset := by rintro rfl; exact hf
      exact .inl ⟨by simp, by simpa [hd] using hi, hw⟩

/-! ## Host accesses to a register -/

/-- CMD is at offset 0x00004 (10_state.md R21). -/
theorem locate_cmd : locate 0x00004#19 = .reg .cmd := by decide

/-- STATUS is at offset 0x00008 (10_state.md R21). -/
theorem locate_status : locate 0x00008#19 = .reg .status := by decide

/-- ERRCMD is at offset 0x0000C (10_state.md R21). -/
theorem locate_errcmd : locate 0x0000C#19 = .reg .errcmd := by decide

/-- An idle read of a register's address gives the register's word (10_state.md R21). -/
theorem readWord_reg {s : State} {a : BitVec 19} {r : Reg} (hl : locate a = .reg r) (hp : s.pending = none) :
    s.readWord a = s.regWord r := by
  simp [State.readWord, busy_none hp, State.idleWord, hl]

/-- An idle write to a register's address is a write to the register (20_memory.md R61). -/
theorem memWrite_reg {s : State} {a : BitVec 19} {r : Reg} (v : Word) (hl : locate a = .reg r)
    (hp : s.pending = none) : memWrite a v s = writeReg r v s := by
  simp [memWrite, busy_none hp, hl]

/-- A write while busy is dropped and sets HZ, whatever its address (70_reset_and_hazards.md R240). -/
theorem memWrite_busy {s : State} (a : BitVec 19) (v : Word) (hb : s.busy = true) :
    memWrite a v s = { s with hz := true } := by
  simp [memWrite, hb]

/-- A host write next to come is the next step, with the reset input low (20_memory.md R60). -/
theorem step_write {s : State} {a : BitVec 19} {v : Word} {ts : List Turn} (ht : s.turns = .write a v :: ts)
    (hr : s.inReset = false) : step s = .next (memWrite a v { s with turns := ts }) := by
  simp [step, ht, takeTurn, hostTurn, hr]

/-- A host write while busy as a step: dropped, with HZ set (70_reset_and_hazards.md R240). -/
theorem step_write_busy {s : State} {a : BitVec 19} {v : Word} {ts : List Turn} (ht : s.turns = .write a v :: ts)
    (hr : s.inReset = false) (hb : s.busy = true) : step s = .next { s with hz := true, turns := ts } := by
  rw [step_write ht hr, memWrite_busy (s := { s with turns := ts }) a v hb]

/-- A host write to a register's address while idle as a step (20_memory.md R61). -/
theorem step_write_reg {s : State} {a : BitVec 19} {r : Reg} {v : Word} {ts : List Turn} (hl : locate a = .reg r)
    (ht : s.turns = .write a v :: ts) (hr : s.inReset = false) (hp : s.pending = none) :
    step s = .next (writeReg r v { s with turns := ts }) := by
  rw [step_write ht hr, memWrite_reg (s := { s with turns := ts }) v hl hp]

/-! ## The statements -/

/-- Settles O12: the completion step is `runWord` of the pending word (`step_of_completing`), and `runWord_errcmd` says
what that leaves in ERRCMD. -/
theorem errcmdHoldsTheLastFailingWord : Obligations.ErrcmdHoldsTheLastFailingWord := by
  refine ⟨fun s t w hc h => ?_, hardReset_errcmd, fun s hp => ⟨readWord_reg locate_errcmd hp, fun v => ?_⟩⟩
  · rw [step_of_completing hc] at h
    obtain ⟨hne, hnr, he⟩ | ⟨hok, he⟩ := runWord_errcmd h
    · exact ⟨fun _ => he, fun hok => absurd hok hne, fun hr => absurd hr hnr⟩
    · exact ⟨fun hne => absurd hok hne, fun _ hnr => by rw [he, if_neg hnr], fun hr => by rw [he, if_pos hr]⟩
  · rw [memWrite_reg v locate_errcmd hp, writeReg]

/-- Settles O41, by the write as a step: idle it reaches CMD (`step_write_reg`), busy it is dropped. -/
theorem cmdWriteIssuesTheCommand : Obligations.CmdWriteIssuesTheCommand :=
  ⟨fun _ _ _ ht hr hp => ⟨_, step_write_reg locate_cmd ht hr hp, rfl, rfl⟩, fun _ _ _ => step_write_busy,
    fun _ hp => readWord_reg locate_cmd hp⟩

/-- Settles O46, by the write as a step: idle it is `clearStatus` (`step_write_reg`), busy it is dropped. -/
theorem statusWriteOneToClear : Obligations.StatusWriteOneToClear := by
  refine ⟨fun s v ts ht hr hp => ⟨_, step_write_reg locate_status ht hr hp, rfl, ?_, ?_⟩,
    fun s v ts => step_write_busy⟩
  · rw [writeReg, clearStatus_err]
    cases v.getLsbD 8 <;> simp
  · rw [writeReg, clearStatus_hz]
    cases v.getLsbD 10 <;> simp

end Sys2Proof.Machine
end

section
/-! PROOFS. The register port's accesses (20_memory.md): the address map reads only the word an address lies in. -/

namespace Sys2Proof.Machine

/-- The word an address lies in starts at `addr - addr % 4`, which does not wrap (20_memory.md R66). -/
theorem toNat_sub_mod_four (addr : BitVec 19) :
    (addr - BitVec.ofNat 19 (addr.toNat % 4)).toNat = addr.toNat - addr.toNat % 4 := by
  have hm : (BitVec.ofNat 19 (addr.toNat % 4)).toNat = addr.toNat % 4 := by
    rw [BitVec.toNat_ofNat, Nat.mod_eq_of_lt (by omega)]
  rw [BitVec.toNat_sub_of_le (by rw [BitVec.le_def, hm]; exact Nat.mod_le _ _), hm]

/-- The address map sees an address only through the word it lies in (20_memory.md R61, R66). -/
theorem locate_congr {a b : BitVec 19} (h : a.toNat / 4 = b.toNat / 4) : locate a = locate b := by
  simp only [locate, h]

/-- The address map takes an address and the start of its word to the same place (20_memory.md R66). -/
theorem locate_sub_mod_four (addr : BitVec 19) :
    locate (addr - BitVec.ofNat 19 (addr.toNat % 4)) = locate addr :=
  locate_congr (by rw [toNat_sub_mod_four]; omega)

/-- A read depends on its address only by the place the address map gives. -/
theorem memRead_congr {a b : BitVec 19} (h : locate a = locate b) (s : State) : memRead a s = memRead b s := by
  simp only [memRead, State.readWord, h]

/-- A write depends on its address only by the place the address map gives. -/
theorem memWrite_congr {a b : BitVec 19} (h : locate a = locate b) (v : Word) (s : State) :
    memWrite a v s = memWrite b v s := by
  simp only [memWrite, h]

/-- Settles O40: reads and writes go through the address map, which ignores bits [1:0] (`locate_sub_mod_four`). -/
theorem portIgnoresTheLowAddressBits : Obligations.PortIgnoresTheLowAddressBits := fun addr v s =>
  have h := (locate_sub_mod_four addr).symm
  ⟨memRead_congr h s, memWrite_congr h v s⟩

end Sys2Proof.Machine
end

section
/-! PROOFS. Rejected words and the check order (30_encoding.md R84, R85): a word is rejected exactly where no row of
the opcode table matches it, and the completion step checks ILLEGAL before the command's own checks. -/

namespace Sys2Proof

/-! ## The rows of the opcode table as fields -/

/-- The OP column of 30_encoding.md R83, read from the row to its opcode number (`Opcode.ofCode_eq_some_iff`). -/
def Opcode.code : Opcode → Nat
  | .nop => 0
  | .reset => 1
  | .crc => 2
  | .push => 3
  | .xsetlen => 4
  | .xload => 5
  | .extu => 6
  | .exts => 7
  | .align => 8

/-- The two readings of the OP column agree. -/
theorem Opcode.ofCode_eq_some_iff {op : Nat} {o : Opcode} : Opcode.ofCode op = some o ↔ op = o.code := by
  constructor
  · intro h
    unfold Opcode.ofCode at h
    split at h <;> cases h <;> rfl
  · rintro rfl
    cases o <;> rfl

/-- The opcode numbers without a row are those from 0x09 on (30_encoding.md R83). -/
theorem Opcode.le_of_ofCode_eq_none {op : Nat} (h : Opcode.ofCode op = none) : 9 ≤ op := by
  by_contra hlt
  interval_cases op <;> cases h

/-- A word with a row's OP field matches the row exactly when the row's reserved bits are 0 (30_encoding.md R81, R83). -/
theorem Opcode.matches_iff_reserved_eq_zero {o : Opcode} {c : Word} (h : Opcode.ofCode (field c 31 26) = some o) :
    c &&& o.maskWord = o.matchWord ↔ field c 25 o.operandBits = 0 := by
  have hop := Opcode.ofCode_eq_some_iff.1 h
  have hc := c.isLt
  rw [o.matches_iff]
  simp only [field_eq] at hop ⊢
  cases o <;> simp only [Opcode.code, Opcode.operandBits, Opcode.matchWord, BitVec.toNat_ofNat] at hop ⊢ <;> omega

/-- The decoder rejects a word when its OP names no row, or the row it names has a reserved bit that is 1. -/
theorem decode_eq_error_iff {c : Word} :
    (∃ r, decode c = .error r) ↔
      ∀ o, Opcode.ofCode (field c 31 26) = some o → field c 25 o.operandBits ≠ 0 := by
  unfold decode
  cases ho : Opcode.ofCode (field c 31 26) with
  | none => simp
  | some o =>
    have hm := Opcode.matches_iff_reserved_eq_zero ho
    by_cases hz : field c 25 o.operandBits = 0
    · simp [hm.2 hz, hz]
    · simp [mt hm.1 hz, hz]

end Sys2Proof

namespace Sys2Proof.Machine

/-! ## Rejected words -/

/-- The two cases of 30_encoding.md R85, row by row. -/
theorem illegalWord_iff {w : Word} :
    IllegalWord w ↔ ∀ o, Opcode.ofCode (field w 31 26) = some o → field w 25 o.operandBits ≠ 0 := by
  cases ho : Opcode.ofCode (field w 31 26) with
  | none => simp [IllegalWord, Opcode.le_of_ofCode_eq_none ho]
  | some o =>
    have hop := Opcode.ofCode_eq_some_iff.1 ho
    cases o <;> simp [IllegalWord, hop, Opcode.code, Opcode.operandBits]

/-- The decoder rejects exactly the words of 30_encoding.md R85. -/
theorem decode_eq_error_iff_illegalWord {w : Word} : (∃ r, decode w = .error r) ↔ IllegalWord w := by
  rw [decode_eq_error_iff, illegalWord_iff]

/-- The completion step of a rejected word raises ILLEGAL. -/
theorem runWord_of_illegalWord {w : Word} (s : State) (h : IllegalWord w) :
    runWord w s = .next (finish (raise .illegal w s)) := by
  obtain ⟨r, hr⟩ := decode_eq_error_iff_illegalWord.2 h
  simp [runWord, hr]

/-- The completion step of a word that decodes runs its command. -/
theorem runWord_of_decode {w : Word} {i : Instr} (s : State) (h : decode w = .ok i) :
    runWord w s = complete (exec i s) := by
  simp [runWord, h]

/-! ## The statements -/

/-- Settles O4: the decoder rejects a word exactly where R85 does (`decode_eq_error_iff_illegalWord`), and the
completion step of such a word is `raise .illegal` (`runWord_of_illegalWord`). -/
theorem illegalWordsAreExactlyThoseOfR85 : Obligations.IllegalWordsAreExactlyThoseOfR85 := by
  refine ⟨fun _ => decode_eq_error_iff_illegalWord, fun s w hc hi => ?_, rfl⟩
  rw [step_of_completing hc, runWord_of_illegalWord _ hi]
  rfl

/-- Settles O9: a rejected word raises ILLEGAL before anything else, and `exec_endings` says which of the other two
checks fails. RANGE and BOUNDS look at no move to come, so they fail in `s` as in the state that the command runs in. -/
theorem causeFollowsTheCheckOrder : Obligations.CauseFollowsTheCheckOrder := by
  intro s t w hc h
  rw [step_of_completing hc] at h ⊢
  refine ⟨fun hi => ?_, fun i hd => ?_⟩
  · rw [runWord_of_illegalWord _ hi] at h
    cases h
    rfl
  · rw [runWord_of_decode _ hd] at h ⊢
    obtain ⟨u, hu, rfl⟩ := complete_eq_next.1 h
    obtain ⟨hr, hb, hok, -⟩ | ⟨hr, -, rfl⟩ | ⟨hr, hb, rfl⟩ := exec_endings hu
    · exact ⟨fun hr' => absurd hr' hr, fun _ hb' => absurd hb' hb, fun _ _ => ⟨hok, rfl⟩⟩
    · exact ⟨fun _ => rfl, fun hr' => absurd hr hr', fun hr' => absurd hr hr'⟩
    · exact ⟨fun hr' => absurd hr' hr, fun _ _ => rfl, fun _ hb' => absurd hb hb'⟩

end Sys2Proof.Machine
end

section
/-! PROOFS. The control commands NOP and RESET (40_control.md R110, R111), and beside them the laws they rest on: the
STATUS word as the sum of its fields, and updates that leave every memory alone. -/

namespace Sys2Proof.Machine

/-! ## Updates that leave every memory alone -/

/-- Memory reads the same where the five memories and the epoch of the free values are the same. -/
theorem sameMemory_of_eq {s t : State} (hi : t.ibuf = s.ibuf) (hp : t.pbuf = s.pbuf) (hr : t.rbuf = s.rbuf)
    (ho : t.obuf = s.obuf) (hf : t.fdesc = s.fdesc) (he : t.epoch = s.epoch) : SameMemory s t := by
  refine ⟨fun m => byteAt_congr ?_ he, desc_congr hf he⟩
  cases m with
  | ibuf => exact hi
  | pbuf => exact hp
  | rbuf => exact hr
  | obuf => exact ho

/-! ## The STATUS word -/

/-- Success leaves BUSY: the pending command stands until `finish` (10_state.md R42). -/
theorem succeed_busy (s : State) : (succeed s).busy = s.busy := rfl

/-- Concatenation as a number. -/
theorem toNat_append_eq_add {m n : Nat} (x : BitVec m) (y : BitVec n) :
    BitVec.toNat (x ++ y) = 2 ^ n * x.toNat + y.toNat := by
  rw [BitVec.toNat_append, Nat.shiftLeft_eq, Nat.mul_comm, or_eq_add n y.isLt]

/-- The STATUS word is the sum of its fields at their places (10_state.md R25). -/
theorem statusWord_toNat (s : State) : s.statusWord.toNat =
    1024 * s.hz.toNat + 512 * s.xfail.toNat + 256 * s.err.toNat + 2 * s.cause.code.toNat + s.busy.toNat := by
  simp only [State.statusWord, toNat_append_eq_add, BitVec.toNat_ofNat, BitVec.toNat_ofBool]
  omega

/-- Success after a BOUNDS failure leaves ERR and XFAIL and clears CAUSE (40_control.md R110, the example): of the
fields only CAUSE changes, and 0x306 is the sum of XFAIL, ERR and CAUSE = 3 alone. -/
theorem succeed_statusWord_of_bounds {s : State} (h : s.statusWord = 0x306#32) :
    (succeed s).statusWord = 0x300#32 := by
  have hcode := s.cause.code.isLt
  have hxfail := s.xfail.toNat_le
  have herr := s.err.toNat_le
  have hbusy := s.busy.toNat_le
  have hold := statusWord_toNat s
  have hnew := statusWord_toNat (succeed s)
  rw [h, BitVec.toNat_ofNat] at hold
  simp only [succeed_hz, succeed_xfail, succeed_err, succeed_cause, succeed_busy, Cause.code,
    BitVec.toNat_ofNat] at hnew
  rw [← BitVec.toNat_inj, hnew, BitVec.toNat_ofNat]
  omega

/-! ## The statements -/

/-- Settles O14: NOP is `succeed` alone, which changes no memory (`sameMemory_of_eq`) and of the STATUS word's
fields only CAUSE (`succeed_statusWord_of_bounds`); a word of NOP's row with an operand bit set is rejected by R85. -/
theorem nopResult : Obligations.NopResult := by
  refine ⟨rfl, fun s => ⟨rfl, sameMemory_of_eq rfl rfl rfl rfl rfl rfl⟩, fun w hop hz => ?_,
    fun s h => ⟨succeed s, rfl, ?_⟩⟩
  · exact decode_eq_error_iff_illegalWord.2 (.inr (.inl ⟨.inl hop, hz⟩))
  · exact succeed_statusWord_of_bounds h

/-- Settles O15: RESET is one record update and never fails, and none of the fields it writes is MAXRET, a memory or
the epoch; a word of RESET's row with an operand bit set is rejected by R85. -/
theorem resetResult : Obligations.ResetResult := by
  refine ⟨rfl, fun s => ⟨_, rfl, rfl, rfl, sameMemory_of_eq rfl rfl rfl rfl rfl rfl⟩, fun w hop hz => ?_⟩
  exact decode_eq_error_iff_illegalWord.2 (.inr (.inl ⟨.inr (.inl hop), hz⟩))

end Sys2Proof.Machine
end

section
/-! PROOFS. The bit-field extractor (41_bitfield.md): XSETLEN, XLOAD, EXTU, EXTS and ALIGN, and beside them the laws
they rest on: the bits of a field and of its two extensions, what a completed read and a new source leave, and PBUF
after a load. -/

namespace Sys2Proof

/-- A word with the OP field of a row is rejected where a bit reserved by its format is 1 (30_encoding.md R85). -/
theorem decode_eq_error_of_reserved {c : Word} (o : Opcode) (hop : field c 31 26 = o.code)
    (hz : field c 25 o.operandBits ≠ 0) : ∃ r, decode c = .error r := by
  refine decode_eq_error_iff.2 fun o' ho' => ?_
  rw [Opcode.ofCode_eq_some_iff.2 hop] at ho'
  cases ho'
  exact hz

/-- The word column of 30_encoding.md R87 for format X: the opcode's bits, bit 6 for a peek, and the width's bits. -/
theorem or_extractOperands (op : Word) (w : Nat) :
    op ||| extractOperands w false = op ||| BitVec.ofNat 32 (w - 1) ∧
      op ||| extractOperands w true = op ||| 0x40#32 ||| BitVec.ofNat 32 (w - 1) :=
  ⟨congrArg (op ||| ·) BitVec.zero_or, (BitVec.or_assoc ..).symm⟩

end Sys2Proof

namespace Sys2Proof.Machine

/-! ## The bits of a field and of its extensions -/

/-- A stream bit inside the source is a bit of PBUF (10_state.md R32, 00_scope.md R11). -/
theorem sbit_source {s : State} {p : Nat} (h : p < 8 * s.plen.toNat) : sbit s.source p = (s.streamBit p).toNat := by
  rw [sbit_eq, State.source, getD_bytesAt _ _ (Nat.div_lt_of_lt_mul h), Nat.zero_add, State.streamBit]

/-- The bits of an in-bounds read: bit `i` is the stream bit `w - 1 - i` places after CUR (41_bitfield.md R120). -/
theorem readField_testBit {s : State} {w : Nat} (hb : s.inBounds w) (i : Nat) :
    (s.readField w).testBit i = (decide (i < w) && s.streamBit (s.cur.toNat + (w - 1 - i))) := by
  rw [State.readField, sfield_testBit]
  obtain hi | hi := Nat.lt_or_ge i w
  · have hp : s.cur.toNat + (w - 1 - i) < 8 * s.plen.toNat :=
      Nat.lt_of_lt_of_le (Nat.add_lt_add_left (Nat.sub_one_sub_lt_of_lt hi) _) hb
    rw [sbit_source hp]
    cases s.streamBit (s.cur.toNat + (w - 1 - i)) <;> rfl
  · rw [decide_eq_false (Nat.not_lt.2 hi), Bool.false_and, Bool.false_and]

/-- The bits of the unsigned extension of an in-bounds read (00_scope.md R13). -/
theorem zext64_readField_getLsbD {s : State} {w : Nat} (hw : w ≤ 64) (hb : s.inBounds w) (i : Nat) :
    (zext64 w (s.readField w)).getLsbD i = (decide (i < w) && s.streamBit (s.cur.toNat + (w - 1 - i))) := by
  rw [zext64, BitVec.getLsbD_ofNat, readField_testBit hb, ← Bool.and_assoc, ← Bool.decide_and]
  congr 2
  exact propext ⟨And.right, fun h => ⟨Nat.lt_of_lt_of_le h hw, h⟩⟩

/-- The signed extension of 00_scope.md R13 is the library's sign extension of a `w`-bit vector. -/
theorem sext64_eq_signExtend {w v : Nat} (hv : v < 2 ^ w) : sext64 w v = (BitVec.ofNat w v).signExtend 64 := by
  have hmsb : (BitVec.ofNat w v).msb = v.testBit (w - 1) := by
    rw [BitVec.msb_eq_getLsbD_last, BitVec.getLsbD, BitVec.toNat_ofNat, Nat.mod_eq_of_lt hv]
  rw [sext64, BitVec.signExtend, BitVec.toInt_eq_msb_cond, hmsb, BitVec.toNat_ofNat, Nat.mod_eq_of_lt hv,
    Int.natCast_pow]
  rfl

/-- A `w`-bit read is below `2^w` (41_bitfield.md R120). -/
theorem readField_lt (s : State) (w : Nat) : s.readField w < 2 ^ w := sfield_lt _ _ w

/-- The bits of the signed extension of an in-bounds read: above the field, its top bit (00_scope.md R13). -/
theorem sext64_readField_getLsbD {s : State} {w : Nat} (hw : 1 ≤ w) (hb : s.inBounds w) {i : Nat} (hi : i < 64) :
    (sext64 w (s.readField w)).getLsbD i = s.streamBit (s.cur.toNat + (w - 1 - min i (w - 1))) := by
  have hbit (j : Nat) (hj : j < w) :
      (BitVec.ofNat w (s.readField w)).getLsbD j = s.streamBit (s.cur.toNat + (w - 1 - j)) := by
    rw [BitVec.getLsbD_ofNat, readField_testBit hb, decide_eq_true hj, Bool.true_and, Bool.true_and]
  rw [sext64_eq_signExtend (readField_lt s w), BitVec.getLsbD_signExtend, decide_eq_true hi, Bool.true_and]
  obtain hiw | hiw := Nat.lt_or_ge i w
  · rw [if_pos hiw, hbit i hiw, Nat.min_eq_left (Nat.le_sub_one_of_lt hiw)]
  · rw [if_neg (Nat.not_lt.2 hiw), BitVec.msb_eq_getLsbD_last, hbit (w - 1) (Nat.sub_one_lt_of_lt hw),
      Nat.min_eq_right (Nat.le_trans (Nat.sub_le w 1) hiw)]

/-- The DISPATCH value: at CUR = 0 the low four of the twelve bits come from PBUF[1], the eight above from PBUF[0]
(41_bitfield.md R135). -/
theorem zext64_readField_dispatch {s : State} (hcur : s.cur = 0#13) (hb : s.inBounds 12) :
    zext64 12 (s.readField 12) =
      ((s.byteAt .pbuf 0).setWidth 64 <<< 4) ||| ((s.byteAt .pbuf 1).setWidth 64 >>> 4) := by
  refine BitVec.eq_of_getLsbD_eq fun i hi => ?_
  have hbit : (zext64 12 (s.readField 12)).getLsbD i = (decide (i < 12) && s.streamBit (11 - i)) := by
    rw [zext64_readField_getLsbD (by decide) hb, hcur, BitVec.toNat_ofNat, Nat.zero_mod, Nat.zero_add]
  have hlow : ∀ i : Nat, i < 4 → (11 - i) / 8 = 1 ∧ 7 - (11 - i) % 8 = 4 + i := by decide
  have hhigh : ∀ i : Nat, i < 12 → 4 ≤ i → (11 - i) / 8 = 0 ∧ 7 - (11 - i) % 8 = i - 4 := by decide
  rw [hbit, State.streamBit, BitVec.getLsbD_or, BitVec.getLsbD_shiftLeft, BitVec.getLsbD_ushiftRight,
    BitVec.getLsbD_setWidth, BitVec.getLsbD_setWidth, decide_eq_true hi,
    decide_eq_true (Nat.lt_of_le_of_lt (Nat.sub_le i 4) hi)]
  obtain h4 | h4 := Nat.lt_or_ge i 4
  · rw [(hlow i h4).1, (hlow i h4).2, decide_eq_true h4, decide_eq_true (show i < 12 by omega),
      decide_eq_true (show 4 + i < 64 by omega)]
    rfl
  · rw [BitVec.getLsbD_of_ge (s.byteAt .pbuf 1) (4 + i) (Nat.add_le_add_left h4 4), decide_eq_false (Nat.not_lt.2 h4),
      Bool.and_false, Bool.or_false]
    obtain h12 | h12 := Nat.lt_or_ge i 12
    · rw [(hhigh i h12 h4).1, (hhigh i h12 h4).2, decide_eq_true h12]
      rfl
    · rw [BitVec.getLsbD_of_ge (s.byteAt .pbuf 0) (i - 4) (Nat.le_sub_of_add_le h12),
        decide_eq_false (Nat.not_lt.2 h12)]
      rfl

/-! ## What the extractor's operations leave -/

/-- A read inside the payload succeeds (41_bitfield.md R132). -/
theorem extract_of_inBounds (ext : Nat → Nat → BitVec 64) {w : Nat} (peek : Bool) (word : Word) {s : State}
    (h : s.inBounds w) :
    extract ext w peek word s =
      .next (succeed (deliver (ext w (s.readField w)) w (if peek then 0 else w) s)) :=
  if_pos h

/-- A read past the end of the payload raises BOUNDS (41_bitfield.md R132). -/
theorem extract_of_not_inBounds (ext : Nat → Nat → BitVec 64) {w : Nat} (peek : Bool) (word : Word) {s : State}
    (h : ¬s.inBounds w) : extract ext w peek word s = .next (raise .bounds word s) :=
  if_neg h

/-- The cursor's move by a read of `w` bits inside the payload stays inside it, a peek's all the more. -/
theorem inBounds_advance {s : State} {w : Nat} (peek : Bool) (h : s.inBounds w) :
    s.inBounds (if peek then 0 else w) := by
  cases peek with
  | false => exact h
  | true => exact Nat.le_trans (Nat.add_le_add_left (Nat.zero_le w) _) h

/-- What a completed read leaves beside RESULT: LASTW, of 7 bits, holds its width; CUR, of 13 bits, has moved on and
does not wrap inside the payload; no memory is written (10_state.md R29, R31, 41_bitfield.md R132, R140). -/
theorem completed_read {v : BitVec 64} {w adv : Nat} {s : State} (hw : w ≤ 64) (hadv : s.inBounds adv) :
    (succeed (deliver v w adv s)).lastw.toNat = w ∧
      (succeed (deliver v w adv s)).cur.toNat = s.cur.toNat + adv ∧ SameMemory s (succeed (deliver v w adv s)) := by
  have hlastw : w < 2 ^ 7 := Nat.lt_of_le_of_lt hw (by decide)
  have hcur : s.cur.toNat + adv < 2 ^ 13 :=
    Nat.lt_of_le_of_lt hadv (Nat.mul_lt_mul_of_pos_left s.plen.isLt (by decide))
  rw [succeed_lastw, deliver_lastw, BitVec.toNat_ofNat, Nat.mod_eq_of_lt hlastw, succeed_cur, deliver_cur,
    BitVec.toNat_ofNat, Nat.mod_eq_of_lt hcur]
  exact ⟨rfl, rfl, sameMemory_of_eq rfl rfl rfl rfl rfl rfl⟩

/-- PLEN holds every length of a payload (10_state.md R32). -/
theorem restart_plen_toNat {n : Nat} {s : State} (h : n ≤ 1023) : (restart n s).plen.toNat = n := by
  rw [restart_plen, BitVec.toNat_ofNat, Nat.mod_eq_of_lt (Nat.lt_of_le_of_lt h (by decide))]

/-- The two endings of EXTU, EXTS and ALIGN: a completed read, or BOUNDS (41_bitfield.md R132, R137). -/
theorem exec_extraction_cases {i : Instr} {s t : State} (hi : i.opcode = .extu ∨ i.opcode = .exts ∨ i.opcode = .align)
    (h : exec i s = .next t) :
    (∃ v w adv, t = succeed (deliver v w adv s)) ∨ t = raise .bounds (encode i) s := by
  cases i with
  | nop | reset | crc | push | xsetlen | xload => simp only [Instr.opcode, reduceCtorEq, or_self] at hi
  | extu | exts =>
    obtain ⟨-, rfl⟩ | ⟨-, rfl⟩ := extract_cases h
    · exact .inl ⟨_, _, _, rfl⟩
    · exact .inr rfl
  | align => cases h; exact .inl ⟨_, _, _, rfl⟩

/-- A peek against the consuming read of the same field (41_bitfield.md R135). -/
theorem extract_peek {ext : Nat → Nat → BitVec 64} {w : Nat} {word word' : Word} {s t t' : State}
    (h : extract ext w true word s = .next t) (h' : extract ext w false word' s = .next t') :
    t.result = t'.result ∧ t.lastw = t'.lastw ∧ t.cur = s.cur ∧ (t.cause = .bounds ↔ t'.cause = .bounds) := by
  obtain ⟨hb, rfl⟩ | ⟨hb, rfl⟩ := extract_cases h <;> obtain ⟨hb', rfl⟩ | ⟨hb', rfl⟩ := extract_cases h'
  · exact ⟨rfl, rfl, BitVec.ofNat_toNat .., Iff.rfl⟩
  · exact absurd hb hb'
  · exact absurd hb' hb
  · exact ⟨rfl, rfl, rfl, Iff.rfl⟩

/-- The pad has at most 7 bits (41_bitfield.md R137). -/
theorem pad_lt (s : State) : s.pad < 8 := Nat.mod_lt _ (by decide)

/-- The pad ends inside the payload (41_bitfield.md R137). -/
theorem inBounds_pad {s : State} (h : s.cur.toNat ≤ 8 * s.plen.toNat) : s.inBounds s.pad :=
  Nat.le_trans (Nat.add_le_add_left (Nat.mod_le _ 8) _) (Nat.le_of_eq (Nat.add_sub_cancel' h))

/-- The pad ends on a byte boundary, because the payload does (41_bitfield.md R137). -/
theorem cur_add_pad_mod {s : State} (h : s.cur.toNat ≤ 8 * s.plen.toNat) : (s.cur.toNat + s.pad) % 8 = 0 := by
  rw [State.pad, Nat.add_mod_mod, Nat.add_sub_cancel' h, Nat.mul_mod_right]

/-- The pad is what the cursor lacks to the next byte boundary (41_bitfield.md R137): both bring CUR to a multiple
of 8. -/
theorem pad_eq {s : State} (h : s.cur.toNat ≤ 8 * s.plen.toNat) : s.pad = (8 - s.cur.toNat % 8) % 8 := by
  refine Nat.ModEq.add_left_cancel' s.cur.toNat ?_
  have hlast : s.cur.toNat % 8 ≤ 8 := Nat.le_of_lt (Nat.mod_lt _ (by decide))
  rw [Nat.ModEq, Nat.add_sub_cancel' h, Nat.mul_mod_right, Nat.add_mod, Nat.add_mod_mod, Nat.add_sub_cancel' hlast]

/-! ## Loading a frame -/

/-- `PBUF[0..|vs|) <- vs`, the write of XLOAD (41_bitfield.md R131; `execXload_of_lt`). -/
abbrev loadPbuf (vs : Bytes) (s : State) : State := { s with pbuf := s.pbuf.writeList 0 vs }

/-- The payload of emitted frame `k`, `OBUF[off + 3 .. off + 3 + L)` (41_bitfield.md R131; `execXload_of_lt`). -/
def State.payload (s : State) (k : Nat) : Bytes := s.bytesAt .obuf (descOff (s.desc k) + 3) (descLen (s.desc k) - 6)

/-- XLOAD of an emitted frame (41_bitfield.md R131). -/
theorem execXload_of_lt {s : State} {k : Nat} (h : k < s.fcount.toNat) :
    execXload k s = .next (succeed (restart (descLen (s.desc k) - 6) (loadPbuf (s.payload k) s))) :=
  if_neg (Nat.not_le.2 h)

/-- A byte of PBUF after a load: the loaded byte, and above the load the old one. -/
theorem byteAt_pbuf_load (n : Nat) (vs : Bytes) (s : State) (j : Nat) :
    (succeed (restart n (loadPbuf vs s))).byteAt .pbuf j = vs.getD j (s.byteAt .pbuf j) := by
  rw [State.byteAt, mem_pbuf, succeed_pbuf, restart_pbuf, loadPbuf, Memory.read_writeList, Nat.zero_add]
  obtain h | h := Nat.lt_or_ge j vs.length
  · rw [if_pos ⟨Nat.zero_le j, h⟩, Nat.sub_zero, List.getElem?_eq_getElem h, List.getD_eq_getElem _ _ h]
    rfl
  · rw [if_neg (fun hin => Nat.not_lt.2 h hin.2), List.getD_eq_default _ _ h]
    rfl

/-- A load leaves every other memory alone. -/
theorem byteAt_other_load (n : Nat) (vs : Bytes) (s : State) {m : MemName} (hm : m ≠ .pbuf) (a : Nat) :
    (succeed (restart n (loadPbuf vs s))).byteAt m a = s.byteAt m a := by
  cases m with
  | pbuf => exact absurd rfl hm
  | ibuf | rbuf | obuf => exact byteAt_congr rfl rfl a

/-- Under the invariant an emitted frame's descriptor holds the frame's length: six bytes and a payload of at most 1023
(10_state.md R44 (f), 30_encoding.md R96). -/
theorem descLen_of_inv {s : State} (hinv : s.Inv) {k : Nat} (hk : k < s.fcount.toNat) :
    6 ≤ descLen (s.desc k) ∧ descLen (s.desc k) - 6 ≤ 1023 := by
  obtain ⟨-, -, -, hframes⟩ := hinv
  obtain ⟨-, -, hlen, -⟩ := hframes k hk
  have hdesc : descLen (s.desc k) = 6 + lengthField (s.frameBytes k) := (length_bytesAt ..).symm.trans hlen
  rw [hdesc, Nat.add_sub_cancel_left]
  exact ⟨Nat.le_add_right 6 _, Nat.le_of_lt_succ (lengthField_lt _)⟩

/-! ## The statements -/

/-- Settles O30: XSETLEN is `restart` with a length that fits PLEN (`restart_plen_toNat`). -/
theorem xsetlenResult : Obligations.XsetlenResult := by
  refine ⟨fun _ => rfl, fun _ _ hn => ⟨_, rfl, ?_, rfl, sameMemory_of_eq rfl rfl rfl rfl rfl rfl⟩,
    fun _ => decode_eq_error_of_reserved .xsetlen⟩
  rw [succeed_plen, restart_plen_toNat hn]

/-- Settles O31: below FCOUNT the invariant gives the frame a payload that fits PLEN (`descLen_of_inv`), and PBUF takes
it and nothing above it (`byteAt_pbuf_load`). -/
theorem xloadResult : Obligations.XloadResult := by
  refine ⟨fun _ => rfl, fun _ _ hinv hk => ?_, fun _ _ hk => if_pos hk, fun _ => decode_eq_error_of_reserved .xload⟩
  obtain ⟨hsix, hfit⟩ := descLen_of_inv hinv hk
  refine ⟨_, execXload_of_lt hk, rfl, ?_⟩
  rw [succeed_plen, restart_plen_toNat hfit]
  refine ⟨Nat.sub_add_cancel hsix, fun j hj => ?_, fun j hj => ?_, fun m a hm => byteAt_other_load _ _ _ hm a,
    fun _ => rfl⟩
  · rw [byteAt_pbuf_load, State.payload, getD_bytesAt _ _ hj]
  · rw [byteAt_pbuf_load, State.payload, List.getD_eq_default _ _ (by rwa [length_bytesAt])]

/-- Settles O32: a read inside the payload completes (`completed_read`), with the bits of the unsigned extension. -/
theorem extuResult : Obligations.ExtuResult := by
  refine ⟨or_extractOperands _, fun _ _ peek _ hw hb => ?_, fun _ _ _ hb => ?_,
    fun _ => decode_eq_error_of_reserved .extu⟩
  · exact ⟨_, extract_of_inBounds _ _ _ hb, rfl, zext64_readField_getLsbD hw hb,
      completed_read hw (inBounds_advance peek hb)⟩
  · exact extract_of_not_inBounds _ _ _ (Nat.not_le.2 hb)

/-- Settles O33: a read inside the payload completes (`completed_read`), with the bits of the signed extension. -/
theorem extsResult : Obligations.ExtsResult := by
  refine ⟨or_extractOperands _, fun _ _ peek hpos hw hb => ?_, fun _ _ _ hb => ?_,
    fun _ => decode_eq_error_of_reserved .exts⟩
  · exact ⟨_, extract_of_inBounds _ _ _ hb, rfl, fun _ => sext64_readField_getLsbD hpos hb,
      completed_read hw (inBounds_advance peek hb)⟩
  · exact extract_of_not_inBounds _ _ _ (Nat.not_le.2 hb)

/-- Settles O34: ALIGN delivers the pad, which ends inside the payload (`inBounds_pad`) on a byte boundary
(`cur_add_pad_mod`), so the laws of an in-bounds read of at most 7 bits apply. -/
theorem alignResult : Obligations.AlignResult := by
  refine ⟨rfl, fun s h => ?_, fun _ => decode_eq_error_of_reserved .align⟩
  have hb := inBounds_pad h
  have hw : s.pad ≤ 64 := Nat.le_trans (Nat.le_of_lt (pad_lt s)) (by decide)
  obtain ⟨hlastw, hcur, hmem⟩ := completed_read (v := zext64 s.pad (s.readField s.pad)) hw hb
  refine ⟨_, s.pad, rfl, rfl, pad_eq h, rfl, zext64_readField_getLsbD hw hb, hlastw, hcur, ?_, ?_, hmem⟩
  · rw [hcur, cur_add_pad_mod h]
  · rwa [hcur]

/-- Settles O35: a peek and a consuming read differ only in the cursor's move (`extract_peek`), and DISPATCH is the
twelve-bit peek, whose value `zext64_readField_dispatch` gives. -/
theorem peekLeavesTheCursor : Obligations.PeekLeavesTheCursor := by
  refine ⟨fun _ _ _ _ _ _ hread => ?_, fun s hcur hplen => ?_⟩
  · obtain ⟨h, h'⟩ | ⟨h, h'⟩ := hread
    · exact extract_peek h h'
    · exact extract_peek h h'
  · have hb : s.inBounds 12 := by
      rw [State.inBounds, hcur]
      exact Nat.le_trans (by decide : 12 ≤ 8 * 2) (Nat.mul_le_mul_left 8 hplen)
    refine ⟨_, extract_of_inBounds _ _ _ hb, by rw [succeed_cur, deliver_cur, hcur]; rfl, ?_⟩
    rw [succeed_result, deliver_result, zext64_readField_dispatch hcur hb]

/-- Settles O36: EXTU, EXTS and ALIGN end in a completed read or in BOUNDS (`exec_extraction_cases`), and neither
writes anything beyond what the statement lists. -/
theorem extractionLeavesPayloadAndFramer : Obligations.ExtractionLeavesPayloadAndFramer := by
  intro _ _ _ hi h
  obtain ⟨-, -, -, rfl⟩ | rfl := exec_extraction_cases hi h
  · exact ⟨rfl, fun _ => ⟨rfl, rfl, rfl⟩, fun hne => absurd rfl hne, sameMemory_of_eq rfl rfl rfl rfl rfl rfl⟩
  · exact ⟨rfl, fun hok => Cause.noConfusion hok, fun _ => ⟨rfl, rfl, rfl⟩, sameMemory_of_eq rfl rfl rfl rfl rfl rfl⟩

end Sys2Proof.Machine
end

section
/-! PROOFS. The framer's PUSH (43_framer.md R171 to R182), and beside it the laws it rests on: the test of one position
in numbers, the scan function as a run of the scan relation, the places of the frames a run emits, and what the memories
hold once a push is stored. -/

namespace Sys2Proof.Machine

/-! ## The test of one position, in numbers -/

/-- A byte looked at from position `i` on is a byte of the working buffer. -/
theorem peekByte_drop (B : Bytes) (i j : Nat) : peekByte (B.drop i) j = B.getD (i + j) 0#8 := by
  rw [peekByte, List.getD_eq_getElem?_getD, List.getElem?_drop, ← List.getD_eq_getElem?_getD]

/-- The length field as a number: the low two bits of the second byte, then the third (30_encoding.md R96). -/
theorem lengthField_eq (rest : Bytes) :
    lengthField rest = (peekByte rest 1).toNat % 4 * 256 + (peekByte rest 2).toNat := by
  have hthird : (peekByte rest 2).toNat < 2 ^ 8 := (peekByte rest 2).isLt
  have hmask : (peekByte rest 1 &&& 0x03#8).toNat = (peekByte rest 1).toNat % 4 :=
    Nat.and_two_pow_sub_one_eq_mod (peekByte rest 1).toNat 2
  rw [lengthField, BitVec.toNat_or, BitVec.toNat_shiftLeft, BitVec.toNat_setWidth, BitVec.toNat_setWidth, hmask,
    Nat.shiftLeft_eq, Nat.mod_eq_of_lt (a := (peekByte rest 2).toNat) (by omega), Nat.mul_comm _ (2 ^ 8),
    Nat.mod_eq_of_lt (by omega), Nat.mod_eq_of_lt (by omega), ← Nat.two_pow_add_eq_or_of_lt hthird, Nat.mul_comm]

/-- The length field of the candidate at `i` (43_framer.md R174). -/
theorem lengthField_drop (B : Bytes) (i : Nat) : lengthField (B.drop i) = lengthAt B i := by
  rw [lengthField_eq, peekByte_drop, peekByte_drop]
  rfl

/-- The checksum field as a number: three bytes, the most significant first (30_encoding.md R97). -/
theorem checksumField_toNat (rest : Bytes) (L : Nat) :
    (checksumField rest L).toNat =
      (peekByte rest (3 + L)).toNat * 65536 + (peekByte rest (4 + L)).toNat * 256 + (peekByte rest (5 + L)).toNat := by
  rw [checksumField, toNat_append_eq_add, toNat_append_eq_add]
  omega

/-- The CRC test of the candidate at `i` is that of the scan relation (43_framer.md R174). -/
theorem crc24q_eq_checksumField_iff (B : Bytes) (i : Nat) :
    crc24q ((B.drop i).take (3 + lengthAt B i)) = checksumField (B.drop i) (lengthAt B i) ↔ CrcMatches B i := by
  rw [← BitVec.toNat_inj, checksumField_toNat, peekByte_drop, peekByte_drop, peekByte_drop, ← Nat.add_assoc,
    ← Nat.add_assoc, ← Nat.add_assoc]
  rfl

/-- The first byte of the candidate at `i`, as a number. -/
theorem peekByte_eq_preamble_iff (B : Bytes) (i : Nat) : peekByte (B.drop i) 0 = 0xD3#8 ↔ byteNat B i = 0xD3 := by
  rw [peekByte_drop, ← BitVec.toNat_inj]
  rfl

/-- The length of a candidate has 10 bits. -/
theorem lengthAt_lt (B : Bytes) (i : Nat) : lengthAt B i < 1024 := lengthField_drop B i ▸ lengthField_lt _

/-! ## The scan function is a run of the scan relation -/

/-- The scan of what is left of a working buffer, with fuel for every position left, is a run of the relation of
43_framer.md R173 to R175. -/
theorem scanRun_scan {tail : Nat} {B : Bytes} (htail : 0 < tail) {fuel i drain : Nat} (hfuel : B.length ≤ fuel + i) :
    ScanRun tail B i drain (scan tail B.length fuel i (B.drop i) drain).frames
      (scan tail B.length fuel i (B.drop i) drain).drain := by
  induction fuel generalizing i drain with
  | zero => exact .atEnd (by omega)
  | succ fuel ih =>
    rw [scan_succ]
    split
    case isFalse hshort => exact .atEnd (Nat.lt_of_not_le hshort)
    case isTrue hroom =>
      have hcases := examine_cases B.length i (B.drop i)
      rw [lengthField_drop, crc24q_eq_checksumField_iff, Ne, Ne, crc24q_eq_checksumField_iff,
        peekByte_eq_preamble_iff] at hcases
      obtain ⟨he, hother⟩ | ⟨he, hpre, hwait⟩ | ⟨he, hpre, hwhole, hdiff⟩ | ⟨he, hpre, hwhole, hagree⟩ := hcases <;>
        simp only [he, List.drop_drop]
      · exact .skip hroom hother (ih (by omega))
      · exact .incomplete hroom hpre hwait
      · exact .falseSync hroom hpre hwhole hdiff (ih (by omega))
      · rw [← Nat.add_assoc]
        exact .frame hroom hpre hwhole hagree (ih (by omega))

/-- The scan of a whole working buffer is a run of the relation of 43_framer.md R173 to R175. -/
theorem scanRun_scanAll {tail : Nat} (htail : 0 < tail) (B : Bytes) :
    ScanRun tail B 0 0 (scanAll tail B).frames (scanAll tail B).drain :=
  scanRun_scan htail (Nat.le_refl _)

/-! ## The places of the emitted frames -/

/-- `Emitted B i drain frames drain'`: what 43_framer.md R179 and R182 need of a run of the scan (`ScanRun.emitted`).
The frames lie in `B` at or after `i`, one after the other without overlap, each of 6 to 1029 bytes, and the drain point
goes from `drain` to the end of the last one. -/
def Emitted (B : Bytes) : (i drain : Nat) → List Bytes → (drain' : Nat) → Prop
  | _, drain, [], drain' => drain' = drain
  | i, _, F :: Fs, drain' =>
    ∃ p, i ≤ p ∧ F = (B.drop p).take F.length ∧ p + F.length ≤ B.length ∧ 6 ≤ F.length ∧ F.length ≤ 1029 ∧
      Emitted B (p + F.length) (p + F.length) Fs drain'

/-- The length of a run of bytes that lies inside the working buffer. -/
theorem length_take_drop {B : Bytes} {p len : Nat} (h : p + len ≤ B.length) : ((B.drop p).take len).length = len := by
  rw [List.length_take, List.length_drop]
  omega

namespace Emitted

variable {B : Bytes} {i drain drain' : Nat} {frames : List Bytes}

/-- Frames that lie after a position lie after every earlier one. -/
theorem mono {j : Nat} (hij : i ≤ j) (h : Emitted B j drain frames drain') : Emitted B i drain frames drain' := by
  cases frames with
  | nil => exact h
  | cons F Fs =>
    obtain ⟨p, hafter, hF⟩ := h
    exact ⟨p, Nat.le_trans hij hafter, hF⟩

/-- A frame has at most 1029 bytes. -/
theorem length_le_of_mem (h : Emitted B i drain frames drain') {F : Bytes} (hF : F ∈ frames) : F.length ≤ 1029 := by
  induction frames generalizing i drain with
  | nil => cases hF
  | cons G Fs ih =>
    obtain ⟨p, -, -, -, -, hmost, hrest⟩ := h
    obtain rfl | hF := List.mem_cons.1 hF
    · exact hmost
    · exact ih hrest hF

/-- The frames are no longer together than what is left of the working buffer, and have at least 6 bytes each
(43_framer.md R181). -/
theorem length_flatten (h : Emitted B i drain frames drain') (hi : i ≤ B.length) :
    6 * frames.length ≤ frames.flatten.length ∧ i + frames.flatten.length ≤ B.length := by
  induction frames generalizing i drain with
  | nil => exact ⟨Nat.le_refl 0, hi⟩
  | cons F Fs ih =>
    obtain ⟨p, hafter, -, hinside, hleast, -, hrest⟩ := h
    obtain ⟨hcount, hsum⟩ := ih hrest hinside
    rw [List.flatten_cons, List.length_append, List.length_cons]
    omega

/-- The frames have places in the working buffer, in order and without overlap (43_framer.md R179). -/
theorem exists_positions (h : Emitted B i drain frames drain') :
    ∃ pos : Nat → Nat, ∀ k, k < frames.length → i ≤ pos k ∧
      frames.getD k [] = (B.drop (pos k)).take (frames.getD k []).length ∧
      pos k + (frames.getD k []).length ≤ B.length ∧
      ∀ k', k < k' → k' < frames.length → pos k + (frames.getD k []).length ≤ pos k' := by
  induction frames generalizing i drain with
  | nil => exact ⟨id, fun k hk => absurd hk (Nat.not_lt_zero k)⟩
  | cons F Fs ih =>
    obtain ⟨p, hafter, hF, hinside, -, -, hrest⟩ := h
    obtain ⟨pos, hpos⟩ := ih hrest
    refine ⟨Nat.rec p fun k _ => pos k, fun k hk => ?_⟩
    cases k with
    | zero =>
      refine ⟨hafter, hF, hinside, fun k' hlt hk' => ?_⟩
      cases k' with
      | zero => exact absurd hlt (Nat.lt_irrefl 0)
      | succ k' => exact (hpos k' (Nat.lt_of_succ_lt_succ hk')).1
    | succ k =>
      obtain ⟨hle, hframe, hin, hnext⟩ := hpos k (Nat.lt_of_succ_lt_succ hk)
      refine ⟨Nat.le_trans hafter (Nat.le_trans (Nat.le_add_right p _) hle), hframe, hin, fun k' hlt hk' => ?_⟩
      cases k' with
      | zero => exact absurd hlt (Nat.not_lt_zero _)
      | succ k' => exact hnext k' (Nat.lt_of_succ_lt_succ hlt) (Nat.lt_of_succ_lt_succ hk')

/-- With no frame the drain point is where it was. -/
theorem drain_eq_of_nil (h : Emitted B i drain frames drain') (hnil : frames = []) : drain' = drain := by
  subst hnil
  exact h

/-- The last frame ends at the drain point (43_framer.md R175). -/
theorem getLast?_ends (h : Emitted B i drain frames drain') {F : Bytes} (hF : frames.getLast? = some F) :
    F.length ≤ drain' ∧ drain' ≤ B.length ∧ (B.drop (drain' - F.length)).take F.length = F := by
  induction frames generalizing i drain with
  | nil => cases hF
  | cons G Fs ih =>
    obtain ⟨p, -, hG, hinside, -, -, hrest⟩ := h
    cases Fs with
    | nil =>
      obtain rfl := hrest.drain_eq_of_nil rfl
      obtain rfl : G = F := Option.some.inj hF
      rw [Nat.add_sub_cancel]
      exact ⟨Nat.le_add_left _ p, hinside, hG.symm⟩
    | cons H Fs => exact ih hrest (by rwa [List.getLast?_cons_cons] at hF)

end Emitted

/-- A run of the scan emits frames that lie one after the other, and drains to the end of the last one
(43_framer.md R173 to R175). -/
theorem ScanRun.emitted {tail : Nat} {B : Bytes} {i drain drain' : Nat} {frames : List Bytes}
    (h : ScanRun tail B i drain frames drain') : Emitted B i drain frames drain' := by
  induction h with
  | atEnd | incomplete => exact rfl
  | skip _ _ _ ih | falseSync _ _ _ _ _ ih => exact ih.mono (Nat.le_succ _)
  | @frame i _ _ _ _ _ whole _ _ ih =>
    have hL := lengthAt_lt B i
    have hlen : ((B.drop i).take (6 + lengthAt B i)).length = 6 + lengthAt B i := length_take_drop (by omega)
    rw [Nat.add_assoc] at ih
    refine ⟨i, Nat.le_refl i, ?_⟩
    rw [hlen]
    exact ⟨rfl, by omega, by omega, by omega, ih⟩

/-! ## Eviction -/

/-- Eviction moves the drain point on to `n - MAXRET` where that lies further on (43_framer.md R176, R182). -/
theorem evict_eq_max (n drain maxret : Nat) : evict n drain maxret = max drain (n - maxret) := by
  unfold evict
  split <;> omega

/-! ## The frame table -/

/-- The descriptor of frame `k`: its length, and the lengths before it added up (43_framer.md R177). -/
theorem getElem?_descriptors (off : Nat) (Fs : List Bytes) (k : Nat) :
    (descriptors off Fs)[k]? = Fs[k]?.map fun F => descriptor (off + (Fs.take k).flatten.length) F.length := by
  induction Fs generalizing off k with
  | nil => rfl
  | cons F Fs ih =>
    cases k with
    | zero => rfl
    | succ k =>
      rw [descriptors, List.getElem?_cons_succ, List.getElem?_cons_succ, ih, List.take_succ_cons, List.flatten_cons,
        List.length_append, Nat.add_assoc]

/-- A frame packed behind the ones before it. -/
theorem take_drop_flatten (Fs : List Bytes) {k : Nat} (hk : k < Fs.length) :
    (Fs.flatten.drop (Fs.take k).flatten.length).take (Fs.getD k []).length = Fs.getD k [] := by
  conv_lhs => enter [2, 2, 1]; rw [← List.take_append_drop k Fs, List.drop_eq_getElem_cons hk]
  rw [List.flatten_append, List.flatten_cons, List.drop_left, List.getD_eq_getElem _ _ hk, List.take_left]

/-! ## The memories after a push -/

/-- A byte of a memory made from a list. -/
theorem byteAt_ofList {s : State} {m : MemName} {vs : Bytes} (hm : s.mem m = Memory.ofList 0 vs) {j : Nat}
    (hj : j < vs.length) : s.byteAt m j = vs.getD j 0#8 := by
  rw [State.byteAt, hm, Memory.read_ofList, if_pos (Nat.zero_le j), Nat.sub_zero, List.getElem?_eq_getElem hj,
    List.getD_eq_getElem _ _ hj]
  rfl

/-- A run of bytes of a memory made from a list. -/
theorem bytesAt_ofList {s : State} {m : MemName} {vs : Bytes} (hm : s.mem m = Memory.ofList 0 vs) {a n : Nat}
    (h : a + n ≤ vs.length) : s.bytesAt m a n = (vs.drop a).take n := by
  refine List.ext_getElem (by rw [length_bytesAt, length_take_drop h]) fun j hj _ => ?_
  rw [length_bytesAt] at hj
  rw [← List.getD_eq_getElem _ 0#8, getD_bytesAt _ _ hj, byteAt_ofList hm (by omega), List.getElem_take,
    List.getElem_drop, List.getD_eq_getElem]

/-- RBUF after a PUSH (43_framer.md R177). -/
theorem push_mem_rbuf (p : Push) (s : State) :
    (succeed (storePush p s)).mem .rbuf = Memory.ofList 0 p.retained := rfl

/-- OBUF after a PUSH (43_framer.md R177). -/
theorem push_mem_obuf (p : Push) (s : State) :
    (succeed (storePush p s)).mem .obuf = Memory.ofList 0 p.frames.flatten := rfl

/-- What a push leaves fits the block (43_framer.md R181): RBUF, OBUF and FDESC hold it, and their length registers and
the descriptors' fields do not wrap. -/
def Push.Fits (p : Push) : Prop :=
  p.retained.length ≤ 16384 ∧ p.frames.flatten.length ≤ 20480 ∧ p.frames.length ≤ 3413 ∧
    ∀ F ∈ p.frames, F.length ≤ 1029

namespace Push.Fits

variable {p : Push} (hp : p.Fits) (s : State)

include hp

/-- RLEN after a push. -/
theorem rlen_toNat : (succeed (storePush p s)).rlen.toNat = p.retained.length := by
  obtain ⟨hretained, -⟩ := hp
  rw [succeed_rlen, storePush_rlen, BitVec.toNat_ofNat, Nat.mod_eq_of_lt (by omega)]

/-- OBLEN after a push. -/
theorem oblen_toNat : (succeed (storePush p s)).oblen.toNat = p.frames.flatten.length := by
  obtain ⟨-, hflat, -⟩ := hp
  rw [succeed_oblen, storePush_oblen, BitVec.toNat_ofNat, Nat.mod_eq_of_lt (by omega)]

/-- FCOUNT after a push. -/
theorem fcount_toNat : (succeed (storePush p s)).fcount.toNat = p.frames.length := by
  obtain ⟨-, -, hcount, -⟩ := hp
  rw [succeed_fcount, storePush_fcount, BitVec.toNat_ofNat, Nat.mod_eq_of_lt (by omega)]

/-- The retained bytes after a push. -/
theorem retained_eq : (succeed (storePush p s)).retained = p.retained := by
  rw [State.retained, hp.rlen_toNat, bytesAt_ofList (push_mem_rbuf p s) (Nat.zero_add _).le, List.drop_zero,
    List.take_length]

/-- The frames before frame `k` lie below the offset field's limit. -/
theorem length_flatten_take (k : Nat) : (p.frames.take k).flatten.length < 2 ^ 15 := by
  obtain ⟨-, hflat, -⟩ := hp
  calc
    _ ≤ p.frames.flatten.length := (List.take_sublist k _).flatten.length_le
    _ ≤ 20480 := hflat
    _ < 2 ^ 15 := by decide

/-- FDESC[k] after a push: its fields, and its word as a number (43_framer.md R177). -/
theorem desc_fields {k : Nat} (hk : k < p.frames.length) :
    descOff ((succeed (storePush p s)).desc k) = (p.frames.take k).flatten.length ∧
      descLen ((succeed (storePush p s)).desc k) = (p.frames.getD k []).length ∧
      ((succeed (storePush p s)).desc k).toNat =
        (p.frames.getD k []).length * 2 ^ 16 + (p.frames.take k).flatten.length := by
  have hdesc : (succeed (storePush p s)).desc k =
      descriptor (p.frames.take k).flatten.length (p.frames.getD k []).length := by
    rw [State.desc, succeed_fdesc, storePush_fdesc, Memory.read_ofList, if_pos (Nat.zero_le k), Nat.sub_zero,
      getElem?_descriptors, List.getElem?_eq_getElem hk, List.getD_eq_getElem _ _ hk, Nat.zero_add]
    rfl
  have hlen : (p.frames.getD k []).length ≤ 1029 := by
    obtain ⟨-, -, -, hframe⟩ := hp
    rw [List.getD_eq_getElem _ _ hk]
    exact hframe _ (List.getElem_mem hk)
  rw [hdesc]
  exact descriptor_fields (hp.length_flatten_take k) (Nat.lt_of_le_of_lt hlen (by decide))

/-- The bytes FDESC[k] points at after a push are frame `k` (43_framer.md R177). -/
theorem frameBytes_eq {k : Nat} (hk : k < p.frames.length) :
    (succeed (storePush p s)).frameBytes k = p.frames.getD k [] := by
  obtain ⟨hoff, hlen, -⟩ := hp.desc_fields s hk
  have hslice := take_drop_flatten p.frames hk
  have hinside : (p.frames.take k).flatten.length + (p.frames.getD k []).length ≤ p.frames.flatten.length :=
    calc
      _ = (p.frames.take (k + 1)).flatten.length := by
        rw [List.take_succ_eq_append_getElem hk, List.flatten_concat, List.length_append, List.getD_eq_getElem _ _ hk]
      _ ≤ p.frames.flatten.length := (List.take_sublist (k + 1) _).flatten.length_le
  rw [State.frameBytes, hoff, hlen, bytesAt_ofList (push_mem_obuf p s) hinside, hslice]

end Push.Fits

/-! ## The PUSH command -/

/-- The length of the working buffer (43_framer.md R172). -/
theorem length_workBuffer (s : State) (n : Nat) : (s.workBuffer n).length = s.rlen.toNat + n := by
  rw [State.workBuffer, State.retained, List.length_append, length_bytesAt, length_bytesAt]

/-- What a PUSH that passes its range check does (43_framer.md R171 to R177): it stores the frames of a run of the scan,
and what stands from the evicted drain point on, and succeeds. -/
theorem exec_push_of_le (s : State) {n : Nat} (hn : n ≤ 4096) :
    ∃ p drain, exec (.push n) s = .next (succeed (storePush p s)) ∧
      ScanRun 6 (s.workBuffer n) 0 0 p.frames drain ∧
      p.retained = (s.workBuffer n).drop (evict (s.workBuffer n).length drain s.maxret.toNat) :=
  ⟨pushBytes 6 s.maxret.toNat s.retained (s.bytesAt .ibuf 0 n), _, if_neg (Nat.not_lt.2 hn),
    scanRun_scanAll (by decide) _, rfl⟩

/-- A PUSH that ends, passing its range check, ends as `exec_push_of_le` says. -/
theorem eq_of_exec_push {s t : State} {n : Nat} (hn : n ≤ 4096) (h : exec (.push n) s = .next t) :
    ∃ p drain, t = succeed (storePush p s) ∧ ScanRun 6 (s.workBuffer n) 0 0 p.frames drain ∧
      p.retained = (s.workBuffer n).drop (evict (s.workBuffer n).length drain s.maxret.toNat) := by
  obtain ⟨p, drain, hexec, hpush⟩ := exec_push_of_le s hn
  rw [hexec] at h
  cases h
  exact ⟨p, drain, rfl, hpush⟩

/-- What stands from the evicted drain point on is at most MAXRET bytes (43_framer.md R182). -/
theorem length_drop_evict_le (B : Bytes) (drain maxret : Nat) :
    (B.drop (evict B.length drain maxret)).length ≤ maxret := by
  rw [List.length_drop]
  exact sub_evict_le ..

/-- Under the invariant the working buffer fits (43_framer.md R172). -/
theorem length_workBuffer_le {s : State} {n : Nat} (hinv : s.Inv) (hn : n ≤ 4096) : s.rlen.toNat + n ≤ 20480 := by
  obtain ⟨⟨-, hrlen, -, -, -⟩, -, -⟩ := hinv
  omega

/-- Under the invariant what a PUSH leaves fits the block (43_framer.md R181). -/
theorem fits_of_scanRun {s : State} {n drain : Nat} {p : Push} (hinv : s.Inv) (hn : n ≤ 4096)
    (hrun : ScanRun 6 (s.workBuffer n) 0 0 p.frames drain)
    (hretained : p.retained = (s.workBuffer n).drop (evict (s.workBuffer n).length drain s.maxret.toNat)) : p.Fits := by
  have hwork := length_workBuffer_le hinv hn
  obtain ⟨⟨-, -, -, -, hmaxret⟩, -, -⟩ := hinv
  obtain ⟨hcount, hsum⟩ := hrun.emitted.length_flatten (Nat.zero_le _)
  rw [length_workBuffer] at hsum
  refine ⟨?_, by omega, by omega, fun _ => hrun.emitted.length_le_of_mem⟩
  rw [hretained]
  exact Nat.le_trans (length_drop_evict_le ..) hmaxret

/-! ## The statements -/

/-- Settles O28: in range PUSH stores its outcome and succeeds, and neither writes ERR, ERRCMD or XFAIL. -/
theorem pushReportsNoFramingError : Obligations.PushReportsNoFramingError := by
  intro s n hn
  obtain ⟨p, drain, hexec, -⟩ := exec_push_of_le s hn
  exact ⟨_, hexec, rfl, rfl, rfl, rfl⟩

/-- Settles O21: the frames come from a run of the scan (`exec_push_of_le`), and what is stored fits the block
(`fits_of_scanRun`), so every register and memory holds it as it is (`Push.Fits`). -/
theorem pushResult : Obligations.PushResult := by
  refine ⟨fun _ => rfl, fun s n hinv hn => ⟨length_workBuffer s n, length_workBuffer_le hinv hn, fun j hj => ?_,
    fun j hj => ?_, ?_⟩, fun _ _ hn => if_pos hn, fun _ => decode_eq_error_of_reserved .push⟩
  · rw [State.workBuffer, State.retained, List.getD_append _ _ _ _ (by rwa [length_bytesAt]), getD_bytesAt _ _ hj,
      Nat.zero_add]
  · rw [State.workBuffer, State.retained, List.getD_append_right _ _ _ _ (by rw [length_bytesAt]; omega),
      length_bytesAt, Nat.add_sub_cancel_left, getD_bytesAt _ _ hj, Nat.zero_add]
  · obtain ⟨p, drain, hexec, hrun, hretained⟩ := exec_push_of_le s hn
    have hfits := fits_of_scanRun hinv hn hrun hretained
    refine ⟨p.frames, drain, _, _, hrun, rfl, hexec, rfl, ?_, fun j hj => ?_, hfits.oblen_toNat s,
      fun j hj => ?_, hfits.fcount_toNat s, fun k hk => ?_, byteAt_congr rfl rfl, byteAt_congr rfl rfl⟩
    · rw [hfits.rlen_toNat, hretained, List.length_drop, evict]
    · rw [hfits.rlen_toNat] at hj
      rw [byteAt_ofList (push_mem_rbuf p s) hj, hretained, ← peekByte, peekByte_drop, evict]
    · rw [hfits.oblen_toNat] at hj
      exact byteAt_ofList (push_mem_obuf p s) hj
    · obtain ⟨-, -, hword⟩ := hfits.desc_fields s hk
      exact ⟨hword, hfits.length_flatten_take k⟩

/-- Settles O24: frame `k` of the output is frame `k` of the scan's run (`Push.Fits.frameBytes_eq`), and the frames of a
run have places one after the other (`Emitted.exists_positions`). -/
theorem framesAreInStreamOrder : Obligations.FramesAreInStreamOrder := by
  intro s t n hinv hn h
  obtain ⟨p, drain, rfl, hrun, hretained⟩ := eq_of_exec_push hn h
  have hfits := fits_of_scanRun hinv hn hrun hretained
  obtain ⟨pos, hpos⟩ := hrun.emitted.exists_positions
  refine ⟨pos, fun k hk => ?_⟩
  rw [hfits.fcount_toNat] at hk ⊢
  obtain ⟨-, hframe, hinside, hnext⟩ := hpos k hk
  obtain ⟨-, hlen, -⟩ := hfits.desc_fields s hk
  rw [hlen]
  exact ⟨(hfits.frameBytes_eq s hk).trans hframe, hinside, hnext⟩

/-- Settles O27: the drain point of the scan's run is where its last frame ends (`Emitted.getLast?_ends`), and eviction
moves it on to `n - MAXRET` where that lies further on (`evict_eq_max`). -/
theorem pushRetention : Obligations.PushRetention := by
  intro s t n hinv hn h
  obtain ⟨p, drain, rfl, hrun, hretained⟩ := eq_of_exec_push hn h
  have hfits := fits_of_scanRun hinv hn hrun hretained
  refine ⟨?_, p.frames, drain, hrun, hfits.fcount_toNat s, fun _ => hfits.frameBytes_eq s,
    hrun.emitted.drain_eq_of_nil, fun _ => hrun.emitted.getLast?_ends, ?_⟩
  · rw [hfits.rlen_toNat, hretained]
    exact length_drop_evict_le ..
  · rw [hfits.retained_eq, hretained, evict_eq_max]

end Sys2Proof.Machine
end
